-- ==== Sys2Proof/Word.lean ====
section
/-! DEFINITION. The word types of the DMM frame decoder block (00_scope.md R11): unsigned integers of a
fixed number of bits. Frame positions, digit sums and exponents are not words; they are `Nat` and `Int`. -/

namespace Sys2Proof

/-- `u32`: a command word or a response word (30_encoding.md R61, R64). -/
abbrev Word := BitVec 32

/-- `u16`: the operand field, `S.EXP`, `S.CURSOR` and the `DATA` field (00_scope.md R6, R11). -/
abbrev Half := BitVec 16

/-- `u8`: a storage byte or a segment code (20_memory.md R41, R43). -/
abbrev Byte := BitVec 8

/-- `f64`: an IEEE 754 binary64 bit pattern (00_scope.md R11, 30_encoding.md R76). -/
abbrev F64 := BitVec 64

/-- The 192-bit record on the dispatch port (30_encoding.md R74). -/
abbrev Record := BitVec 192

end Sys2Proof
end

