-- ==== Sys2Proof/Config.lean ====
section
/-! DEFINITION. The build-time parameters of the block (00_scope.md R7) and the reference instance `REF`
(00_scope.md R9, 92_eei_decisions.md D31). The source gives no parameter a value, so the block the model
starts is built with an opaque constant, `Config.build`; no definition of the machine reads `Build.ref`. -/

namespace Sys2Proof

/-- A symbol of the segment table: a digit 0 to 9, or the overload sentinel `OL` (30_encoding.md R72). -/
inductive Symbol where
  | digit (d : Fin 10)
  | ol
  deriving DecidableEq, Repr, Inhabited

/-- The 11 symbols of 30_encoding.md R72. -/
def Symbol.all : List Symbol :=
  [.digit 0, .digit 1, .digit 2, .digit 3, .digit 4, .digit 5, .digit 6, .digit 7, .digit 8, .digit 9, .ol]

/-- One pair `(pattern, symbol)` of `SEG_TABLE`. -/
abbrev SegEntry := Byte × Symbol

/-- The patterns a list of pairs gives a symbol, in list order. -/
def formsOf (t : List SegEntry) (s : Symbol) : List Byte :=
  (t.filter fun e => e.2 == s).map Prod.fst

/-- Two patterns differ in exactly one bit. -/
def differInOneBit (p q : Byte) : Bool :=
  ((List.range 8).filter fun i => p.getLsbD i != q.getLsbD i).length == 1

/-- A symbol's patterns are exactly two, and these differ in exactly one bit. -/
def twoFormsOneBitApart : List Byte → Bool
  | [p, q] => differInOneBit p q
  | _ => false

/-- The well-formedness of `SEG_TABLE` (30_encoding.md R72): 22 pairs, pairwise distinct patterns, each of
the 11 symbols in exactly two pairs, a symbol's two patterns one bit apart. -/
def segTableWellFormed (t : List SegEntry) : Bool :=
  t.length == 22 && decide (t.map Prod.fst).Nodup &&
    Symbol.all.all fun s => twoFormsOneBitApart (formsOf t s)

/-- `SEG_TABLE` with the check that 30_encoding.md R72 makes at build time: a table that fails it cannot be
built. The defaults only show that the type has a value; nothing reads them. -/
structure SegTable where
  entries : List SegEntry :=
    Symbol.all.zipIdx.flatMap fun e => [(BitVec.ofNat 8 (2 * e.2), e.1), (BitVec.ofNat 8 (2 * e.2 + 1), e.1)]
  wellFormed : segTableWellFormed entries = true := by decide
  deriving DecidableEq, Repr, Inhabited

/-- The build-time parameters, all of them, under the names of 00_scope.md R7. A bit position is a frame bit
index (20_memory.md R40). The default of `maxFrameBits` only shows that the type has a value. -/
structure Build where
  /-- `MAX_FRAME_BITS`, the largest `EXP` that CONFIGURE accepts. -/
  maxFrameBits : Nat := 1
  /-- Its legal range, `1 ≤ v ≤ 65535`. -/
  maxRange : 1 ≤ maxFrameBits ∧ maxFrameBits ≤ 65535 := by decide
  /-- `OFF_V`, the voltage flag. -/
  offV : Nat
  /-- `OFF_I`, the current flag. -/
  offI : Nat
  /-- `OFF_R`, the resistance flag. -/
  offR : Nat
  /-- `OFF_T`, the temperature flag. -/
  offT : Nat
  /-- `OFF_AC`, the AC/DC flag. -/
  offAC : Nat
  /-- `OFF_X6`, the scale flag ×10^6. -/
  offX6 : Nat
  /-- `OFF_X3`, the scale flag ×10^3. -/
  offX3 : Nat
  /-- `OFF_XM3`, the scale flag ×10^-3. -/
  offXM3 : Nat
  /-- `OFF_XM6`, the scale flag ×10^-6. -/
  offXM6 : Nat
  /-- `OFF_DIG[i]`, the first bit of primary digit `i`'s segment code. -/
  offDig : Vector Nat 4
  /-- `OFF_DOT[i]`, primary digit `i`'s dot-or-minus flag. -/
  offDot : Vector Nat 4
  /-- `OFF_SDIG[i]`, the first bit of secondary digit `i`'s segment code. -/
  offSDig : Vector Nat 4
  /-- `OFF_SDOT[i]`, secondary digit `i`'s decimal-point flag (no digit 3: D36). -/
  offSDot : Vector Nat 3
  /-- `OFF_SX3`, the secondary ×10^3 flag. -/
  offSX3 : Nat
  /-- `SEG_TABLE`. -/
  segTable : SegTable
  deriving DecidableEq, Repr, Inhabited

/-- The parameters of the block that leaves reset: a free choice of every one of them (92_eei_decisions.md
D6, D15, D16 mark each `OPEN`). It has no body, so nothing can be proved of its values beyond the types. -/
opaque Config.build : Build

/-- `SEGREF` of 92_eei_decisions.md D31, both forms of each symbol. -/
def Build.refTable : List SegEntry :=
  [(0x3F, .digit 0), (0xBF, .digit 0), (0x06, .digit 1), (0x86, .digit 1), (0x5B, .digit 2), (0xDB, .digit 2),
   (0x4F, .digit 3), (0xCF, .digit 3), (0x66, .digit 4), (0xE6, .digit 4), (0x6D, .digit 5), (0xED, .digit 5)] ++
  [(0x7D, .digit 6), (0xFD, .digit 6), (0x07, .digit 7), (0x87, .digit 7), (0x7F, .digit 8), (0xFF, .digit 8),
   (0x6F, .digit 9), (0xEF, .digit 9), (0x38, .ol), (0xB8, .ol)]

/-- The reference instance `REF` (00_scope.md R9, 92_eei_decisions.md D31). It exists for concrete bits in
tests only; the machine takes its parameters as arguments and no definition of it reads this one. -/
def Build.ref : Build where
  maxFrameBits := 256
  offV := 80
  offI := 81
  offR := 82
  offT := 83
  offAC := 84
  offX6 := 88
  offX3 := 89
  offXM3 := 90
  offXM6 := 91
  offDig := #v[8, 16, 24, 32]
  offDot := #v[8, 16, 24, 32]
  offSDig := #v[48, 56, 64, 72]
  offSDot := #v[48, 56, 64]
  offSX3 := 92
  segTable := { entries := Build.refTable }

end Sys2Proof
end

