-- ==== Sys2Proof/Syntax.lean ====
section
/-! DEFINITION. The commands of the block, one constructor per row of spec/opcode_table.json (30_encoding.md
R60, R62). An operand is held as exactly the bits its encoding gives it, so every term has an encoding. -/

namespace Sys2Proof

/-- A command (30_encoding.md R62). The block runs no program: its instructions are these commands (00_scope.md R3). -/
inductive Instr where
  /-- `NOP`, OP 0x0 (40_accumulator.md R100). -/
  | nop
  /-- `CONFIGURE E`, OP 0x1: the expected frame length (40_accumulator.md R102). -/
  | configure (e : Half)
  /-- `PUSH_BIT v`, OP 0x2: append the bit `v` (40_accumulator.md R104). -/
  | pushBit (v : Bool)
  /-- `BIT_AT p`, OP 0x3: read the bit at `p` (40_accumulator.md R106). -/
  | bitAt (p : Half)
  /-- `BYTE_AT p`, OP 0x4: read eight bits from `p` (40_accumulator.md R107). -/
  | byteAt (p : Half)
  /-- `SIZE`, OP 0x5: read the write cursor (40_accumulator.md R108). -/
  | size
  /-- `RESET`, OP 0x6: zero the window and the cursor (40_accumulator.md R110). -/
  | reset
  /-- `CLK_EDGE`, OP 0x7: append the sampled data level (41_frame_control.md R131). -/
  | clkEdge
  /-- `EN_EDGE`, OP 0x8: frame boundary (41_frame_control.md R133). -/
  | enEdge
  deriving DecidableEq, Repr

end Sys2Proof
end

