-- ==== Sys2Proof/WellFormed.lean ====
section
/-! DEFINITION. Which 32-bit words are well-encoded command words (30_encoding.md R62, R63). Every term of
`Instr` holds exactly the bits of its encoding, so the check is on words; the check on a segment table stands
with its type in Config.lean. -/

namespace Sys2Proof

/-- The must-be-zero operand bits of an operation, as a mask over `OPND` (30_encoding.md R62, column
"must-be-zero bits"); for a reserved operation there is no operand form, and the mask is not used. -/
def mustBeZero (op : BitVec 4) : Half :=
  if op = 0x1 ∨ op = 0x3 ∨ op = 0x4 then 0x0000
  else if op = 0x2 then 0xFFFE
  else 0xFFFF

/-- A command word is well-encoded (30_encoding.md R63): `w[31:28] ≤ 0x8`, `w[27:16] = 0`, and the operation's
must-be-zero bits are 0. -/
def wellEncoded (w : Word) : Bool :=
  w.extractLsb 31 28 ≤ 0x8#4 && w.extractLsb 27 16 == 0#12 &&
    w.extractLsb 15 0 &&& mustBeZero (w.extractLsb 31 28) == 0#16

end Sys2Proof
end

