-- ==== Sys2Proof/Decode.lean ====
section
/-! DEFINITION. The decoder, total on every 32-bit word (30_encoding.md R62, R66), the encoder (R61, R68), and
the opcode table as match/mask rows. -/

namespace Sys2Proof

/-- `OP`, bits 31:28 (30_encoding.md R61). -/
def opField (w : Word) : BitVec 4 := w.extractLsb' 28 4

/-- `RSV`, bits 27:16 (30_encoding.md R61). -/
def rsvField (w : Word) : BitVec 12 := w.extractLsb' 16 12

/-- `OPND`, bits 15:0 (30_encoding.md R61). -/
def opndField (w : Word) : Half := w.extractLsb' 0 16

/-- Why a word is illegal (30_encoding.md R66). The block answers every one of them alike. -/
inductive IllegalCause where
  /-- `OP` is 0x9 to 0xF. -/
  | reservedOp
  /-- `RSV` is not 0. -/
  | reservedField
  /-- A must-be-zero operand bit is set. -/
  | operandBits
  deriving DecidableEq, Repr

/-- The decoder's verdict: "one of the nine commands or `Illegal`" (30_encoding.md R66). -/
inductive Verdict where
  | command (i : Instr)
  | illegal (why : IllegalCause)
  deriving DecidableEq, Repr

/-- A command whose operand bits must all be 0. -/
def decodeBare (opnd : Half) (i : Instr) : Verdict :=
  if opnd = 0 then .command i else .illegal .operandBits

/-- The decoder of 30_encoding.md R62: a match on `w[31:28]`, with the checks of R63. -/
def decode (w : Word) : Verdict :=
  if rsvField w ≠ 0 then .illegal .reservedField
  else match (opField w).toNat with
    | 0x0 => decodeBare (opndField w) .nop
    | 0x1 => .command (.configure (opndField w))
    | 0x2 =>
      if (opndField w).extractLsb' 1 15 = 0 then .command (.pushBit ((opndField w).getLsbD 0))
      else .illegal .operandBits
    | 0x3 => .command (.bitAt (opndField w))
    | 0x4 => .command (.byteAt (opndField w))
    | 0x5 => decodeBare (opndField w) .size
    | 0x6 => decodeBare (opndField w) .reset
    | 0x7 => decodeBare (opndField w) .clkEdge
    | 0x8 => decodeBare (opndField w) .enEdge
    | _ => .illegal .reservedOp

/-- The instruction the decoder reads from a word of the opcode table; the table gives every row 32 bits. -/
def decodeTableWord (nbits w : Nat) : Option Instr :=
  match decode (BitVec.ofNat 32 (w % 2 ^ nbits)) with
  | .command i => some i
  | .illegal _ => none

/-- The operation code of a command (30_encoding.md R62). -/
def opcode : Instr → BitVec 4
  | .nop => 0x0
  | .configure _ => 0x1
  | .pushBit _ => 0x2
  | .bitAt _ => 0x3
  | .byteAt _ => 0x4
  | .size => 0x5
  | .reset => 0x6
  | .clkEdge => 0x7
  | .enEdge => 0x8

/-- The operand field of a command (30_encoding.md R62). -/
def operand : Instr → Half
  | .configure e => e
  | .pushBit v => (BitVec.ofBool v).setWidth 16
  | .bitAt p => p
  | .byteAt p => p
  | .nop | .size | .reset | .clkEdge | .enEdge => 0

/-- The command word `OP << 28 | OPND`, with `RSV` 0 (30_encoding.md R61, R68). -/
def encode (i : Instr) : Word := opcode i ++ (0#12 ++ operand i)

/-- The mnemonic of a command (30_encoding.md R62). -/
def mnemonic : Instr → String
  | .nop => "NOP"
  | .configure _ => "CONFIGURE"
  | .pushBit _ => "PUSH_BIT"
  | .bitAt _ => "BIT_AT"
  | .byteAt _ => "BYTE_AT"
  | .size => "SIZE"
  | .reset => "RESET"
  | .clkEdge => "CLK_EDGE"
  | .enEdge => "EN_EDGE"

/-- One row of spec/opcode_table.json. -/
structure OpcodeRow where
  mnemonic : String
  pattern : Word
  mask : Word
  deriving DecidableEq, Repr

/-- spec/opcode_table.json, its `match` and `mask` columns (30_encoding.md R62). -/
def opcodeTable : List OpcodeRow :=
  [⟨"NOP", 0x00000000, 0xFFFFFFFF⟩, ⟨"CONFIGURE", 0x10000000, 0xFFFF0000⟩, ⟨"PUSH_BIT", 0x20000000, 0xFFFFFFFE⟩,
   ⟨"BIT_AT", 0x30000000, 0xFFFF0000⟩, ⟨"BYTE_AT", 0x40000000, 0xFFFF0000⟩, ⟨"SIZE", 0x50000000, 0xFFFFFFFF⟩,
   ⟨"RESET", 0x60000000, 0xFFFFFFFF⟩, ⟨"CLK_EDGE", 0x70000000, 0xFFFFFFFF⟩, ⟨"EN_EDGE", 0x80000000, 0xFFFFFFFF⟩]

end Sys2Proof
end

