-- ==== Sys2Proof/Machine/State.lean ====
section
/-! DEFINITION. The state as plain data: the five fields `S` of 10_state.md R20, and beside them what the step of
00_scope.md R3 takes and gives (10_state.md R21): the build-time parameters, the command port, the data level,
the response and the dispatch port. -/

namespace Sys2Proof.Machine

/-- The accumulator storage `S.STORE`, held as bytes (20_memory.md R41 allows either form): pairs of a storage
byte's number and its value, numbers strictly rising, a byte that is not listed reading 0. -/
abbrev Memory := List Host.Cell

/-- A command's `STATUS` (30_encoding.md R64, R65). -/
inductive Status where
  | ok
  | illegal
  | range
  | nocfg
  deriving DecidableEq, Repr

/-- A response, by its fields that are not always 0 (30_encoding.md R64). -/
structure Response where
  status : Status
  ovf : Bool
  data : Half
  deriving DecidableEq, Repr

/-- The measurement mode (30_encoding.md R73). `unknown` is in the enum and is never emitted (42_mode_exponent.md
R152); code 7 is reserved and has no name. -/
inductive Mode where
  | voltageDC
  | voltageAC
  | currentDC
  | currentAC
  | resistance
  | temperature
  | unknown
  deriving DecidableEq, Repr

/-- A reading, by the fields of its record (30_encoding.md R74). Digit sums and exponents are numbers here; the
record packs them into their fields. -/
structure Reading where
  primary : F64
  secondary : F64
  overloaded : Bool
  mode : Mode
  pneg : Bool
  pexp : Int
  pmant : Nat
  svalid : Bool
  sexp : Int
  smant : Nat
  deriving DecidableEq, Repr

/-- One delivery on the command port: a command word, and the level of the data line with it, which only
CLK_EDGE reads (41_frame_control.md R130). -/
structure Delivery where
  word : Word
  sampled : Bool
  deriving DecidableEq, Repr

/-- The machine. The first five fields are the block's state `S` (10_state.md R20); no other field is read back
by a command after the step that wrote it. -/
structure State where
  /-- `S.CFG`, the configured flag (10_state.md R23). -/
  cfg : Bool
  /-- `S.EXP`, the expected frame length and the capacity (10_state.md R24). -/
  exp : Half
  /-- `S.CURSOR`, the write cursor (10_state.md R25). -/
  cursor : Half
  /-- `S.OVF`, the sticky overflow flag (10_state.md R26). -/
  ovf : Bool
  /-- `S.STORE`, the accumulator storage (10_state.md R27). -/
  store : Memory
  /-- The build-time parameters, an argument of every rule (00_scope.md R7); no step changes them. -/
  build : Build
  /-- The host's commands not yet delivered, in arrival order (20_memory.md R52, 60_exceptions.md R226). -/
  pending : List Delivery
  /-- `sampled_data`, the input that came with the command being processed (41_frame_control.md R130). -/
  sampledData : Bool
  /-- The response given in the last step, if it took a command (30_encoding.md R64). -/
  response : Option Response
  /-- The readings placed on the dispatch port in the last step (41_frame_control.md R135). -/
  dispatch : List Reading
  deriving DecidableEq, Repr

/-- The reasons a step stops with a fault. There are none: "The block raises no exceptions and takes no traps"
(60_exceptions.md R220), and no address of the block faults (20_memory.md R45 answers `RANGE`). -/
inductive Fault where
  deriving DecidableEq, Repr

/-- The reasons a step has no meaning. -/
inductive Refusal where
  /-- A command of the opcode table without a meaning: raised by an arm of `exec` only, and by none at present.
  Safe: nothing is claimed of such a command. -/
  | notModelled (mnemonic : String)
  deriving DecidableEq, Repr

/-- The power-on state of a block built with the parameters `b` (70_reset_and_hazards.md R250), no command
delivered yet. `S.STORE` is unspecified there and not observable (10_state.md R27); here no byte is listed.
DESIGN CHOICE, unsafe (log entries 3 and 4): that store, and the data level before the first command. -/
def State.powerOn (b : Build) : State where
  cfg := false
  exp := 0
  cursor := 0
  ovf := false
  store := []
  build := b
  pending := []
  sampledData := false
  response := none
  dispatch := []

/-- The machine right after reset: power-on (70_reset_and_hazards.md R250) of a block with free parameters. -/
def State.reset : State := State.powerOn Config.build

end Sys2Proof.Machine
end

