-- ==== Sys2Proof/Machine/Derived.lean ====
section
/-! DEFINITION. The quantities derived from the parameters and `EXP` (00_scope.md R8), and which frame lengths
CONFIGURE accepts (40_accumulator.md R102). -/

namespace Sys2Proof.Machine

/-- `CAP = EXP`, the accumulator capacity in bits (00_scope.md R8). -/
def capacity (e : Half) : Nat := e.toNat

/-- `NBYTES = ceil(EXP / 8) + 1`, the storage size in bytes (00_scope.md R8). -/
def nbytes (e : Half) : Nat := (e.toNat + 7) / 8 + 1

/-- `STORE_BITS = 8 * NBYTES`, the number of addressable positions (00_scope.md R8). -/
def storeBits (e : Half) : Nat := 8 * nbytes e

/-- `ceil(MAX_FRAME_BITS / 8) + 1`, the preallocated storage in bytes (10_state.md R27). -/
def physBytes (b : Build) : Nat := (b.maxFrameBits + 7) / 8 + 1

/-- `PHYS_BITS`, the preallocated storage in bits (10_state.md R27). -/
def physBits (b : Build) : Nat := 8 * physBytes b

/-- The single-bit offset parameters (00_scope.md R7). -/
def flagOffsets (b : Build) : List Nat :=
  [b.offV, b.offI, b.offR, b.offT, b.offAC, b.offX6, b.offX3, b.offXM3, b.offXM6, b.offSX3] ++
    b.offDot.toList ++ b.offSDot.toList

/-- The segment-code offset parameters; each field is 8 bits (00_scope.md R7). -/
def codeOffsets (b : Build) : List Nat := b.offDig.toList ++ b.offSDig.toList

/-- `FRAME_FIT(E)` (00_scope.md R8): every single-bit offset is `< E`, every code offset `+ 8` is `≤ E`. -/
def frameFit (b : Build) (e : Half) : Bool :=
  (flagOffsets b).all (fun o => decide (o < e.toNat)) && (codeOffsets b).all (fun o => decide (o + 8 ≤ e.toNat))

/-- CONFIGURE accepts the length `E` (40_accumulator.md R102). -/
def legalExp (b : Build) (e : Half) : Bool :=
  e != 0 && decide (e.toNat ≤ b.maxFrameBits) && frameFit b e

end Sys2Proof.Machine
end

