-- ==== Sys2Proof/Machine/Flags.lean ====
section
/-! DEFINITION. The tests on the flags and counters of 10_state.md: when a push overflows, and when a frame is
complete. -/

namespace Sys2Proof.Machine

/-- The capacity is reached: a push now sets `S.OVF` (10_state.md R26, 40_accumulator.md R104). -/
def atCapacity (s : State) : Bool := s.cursor == s.exp

/-- EN_EDGE's length check fails: `S.OVF = 1 or S.CURSOR ≠ S.EXP` (41_frame_control.md R133, step 1). -/
def malformedLength (s : State) : Bool := s.ovf || s.cursor != s.exp

end Sys2Proof.Machine
end

