-- ==== Sys2Proof/Machine/Operands.lean ====
section
/-! DEFINITION. The operand form and the result forms of the command port: every operand is `zext_16(OPND)`, or
`OPND[0]` for PUSH_BIT (30_encoding.md R61), which the decoder has already taken out; results are zero-extended
to the 16-bit `DATA` field. -/

namespace Sys2Proof.Machine

/-- An operand as a frame position (00_scope.md R10, 30_encoding.md R61): no sign, scale or shift. -/
def positionOf (p : Half) : Nat := p.toNat

/-- `zext_16` of one bit (40_accumulator.md R106). -/
def zextBit (v : Bool) : Half := (BitVec.ofBool v).setWidth 16

/-- `zext_16` of a byte (40_accumulator.md R107). -/
def zextByte (v : Byte) : Half := v.setWidth 16

end Sys2Proof.Machine
end

