-- ==== Sys2Proof/Machine/Ops.lean ====
section
/-! DEFINITION. The shared operations: the storage bytes, the state primitives of 00_scope.md R12, the common
prologue (40_accumulator.md R101), and the words the ports carry. The block takes no exception and returns from
none (60_exceptions.md R220, R228); what stands in for them is the status of `respond` and the flag `S.OVF`. -/

namespace Sys2Proof.Machine

/-! ### Storage bytes -/

/-- What a storage byte that is not listed reads as. DESIGN CHOICE for power-on (log entry 3); after CONFIGURE it
is the zero of "zero-initialized" storage (20_memory.md R42, R44). -/
def Memory.unlisted : Byte := 0

/-- Storage byte `k`. -/
def Memory.readByte : Memory → Nat → Byte
  | [], _ => Memory.unlisted
  | c :: m, k => if c.1 = k then c.2 else Memory.readByte m k

/-- The cells with byte `k` taken out. -/
def Memory.erase (m : Memory) (k : Nat) : Memory := m.filter fun c => c.1 != k

/-- A cell put in its place by address. -/
def Memory.insert : Memory → Nat → Byte → Memory
  | [], k, v => [(k, v)]
  | c :: m, k, v => if k < c.1 then (k, v) :: c :: m else c :: Memory.insert m k v

/-- Set storage byte `k`; a byte that reads as an unlisted one is not listed. -/
def Memory.writeByte (m : Memory) (k : Nat) (v : Byte) : Memory :=
  if v = Memory.unlisted then m.erase k else (m.erase k).insert k v

/-- Zero the storage bytes below `n`. -/
def Memory.clearBelow (m : Memory) (n : Nat) : Memory := m.filter fun c => decide (n ≤ c.1)

/-- The canonical form: addresses strictly rising, no listed byte equal to what an unlisted one reads as. -/
abbrev Memory.wf (m : Memory) : Prop :=
  m.Pairwise (fun c d => c.1 < d.1) ∧ ∀ c ∈ m, c.2 ≠ Memory.unlisted

/-! ### Bits of the storage -/

/-- The bit at frame position `p`: bit `7 - (p & 7)` of storage byte `p >> 3` (20_memory.md R41). -/
def Memory.bit (m : Memory) (p : Nat) : Bool := (m.readByte (p / 8)).getLsbD (7 - p % 8)

/-- `MemWrite(p, 1, v)`: OR the bit `v` into position `p` (20_memory.md R44). -/
def Memory.orBit (m : Memory) (p : Nat) (v : Bool) : Memory :=
  m.writeByte (p / 8) (m.readByte (p / 8) ||| (BitVec.ofBool v).setWidth 8 <<< (7 - p % 8))

/-- `MemRead(p, 8) = Σ_{k=0..7} BitRead(p + k) << (7 - k)` (20_memory.md R43), of the frame whose bits are `bit`. -/
def memRead8 (bit : Nat → Bool) (p : Nat) : Byte :=
  BitVec.ofNat 8 ((List.range 8).map fun k => (bit (p + k)).toNat <<< (7 - k)).sum

/-- `BitRead(p)` (20_memory.md R42). -/
def State.bitRead (s : State) (p : Nat) : Bool := s.store.bit p

/-! ### State primitives -/

/-- `respond(STATUS, DATA)`: the response of this step, with `OVF` taken from the state after the command
(30_encoding.md R64). -/
def respond (status : Status) (data : Half) (s : State) : State :=
  { s with response := some ⟨status, s.ovf, data⟩ }

/-- `emit Reading(r)`: one more reading on the dispatch port in this step (41_frame_control.md R135). -/
def emit (r : Reading) (s : State) : State := { s with dispatch := s.dispatch ++ [r] }

/-- `AccReset()` (40_accumulator.md R110): the window `p < STORE_BITS` is zeroed, `S.EXP` and `S.CFG` are kept. -/
def accReset (s : State) : State :=
  { s with store := s.store.clearBelow (nbytes s.exp), cursor := 0, ovf := false }

/-- The accepted half of CONFIGURE (40_accumulator.md R102): the whole preallocated storage is zeroed. -/
def create (e : Half) (s : State) : State :=
  { s with exp := e, store := s.store.clearBelow (physBytes s.build), cursor := 0, ovf := false, cfg := true }

/-- Append one bit at the write cursor (40_accumulator.md R104). -/
def append (v : Bool) (s : State) : State :=
  { s with store := s.store.orBit s.cursor.toNat v, cursor := s.cursor + 1 }

/-- Set the sticky overflow flag (10_state.md R26). -/
def setOverflow (s : State) : State := { s with ovf := true }

/-- The body that PUSH_BIT and CLK_EDGE share (40_accumulator.md R104, 41_frame_control.md R131). -/
def push (v : Bool) (s : State) : State :=
  if atCapacity s then respond .ok 0 (setOverflow s) else respond .ok 0 (append v s)

/-- The prologue's last line (40_accumulator.md R101): without configuration the command answers `NOCFG`. -/
def whenConfigured (body : State → State) (s : State) : State :=
  if s.cfg then body s else respond .nocfg 0 s

/-- The answer to a word that is not well-encoded (30_encoding.md R66). -/
def answerIllegal (s : State) : State := respond .illegal 0 s

/-- Take a command off the port (41_frame_control.md R130): its data level is this step's input, and neither a
response nor a reading has been given in this step yet. -/
def deliver (d : Delivery) (rest : List Delivery) (s : State) : State :=
  { s with pending := rest, sampledData := d.sampled, response := none, dispatch := [] }

/-- A step with no command delivered: "It is idle between commands" (60_exceptions.md R234). -/
def idle (s : State) : State := { s with response := none, dispatch := [] }

/-! ### The words on the ports -/

/-- The two bits of a status (30_encoding.md R64). -/
def Status.code : Status → BitVec 2
  | .ok => 0b00
  | .illegal => 0b01
  | .range => 0b10
  | .nocfg => 0b11

/-- The response word (30_encoding.md R64). -/
def Response.word (r : Response) : Word :=
  r.status.code ++ (0#13 ++ (BitVec.ofBool r.ovf ++ r.data))

/-- The mode code (30_encoding.md R73). -/
def Mode.code : Mode → BitVec 3
  | .voltageDC => 0
  | .voltageAC => 1
  | .currentDC => 2
  | .currentAC => 3
  | .resistance => 4
  | .temperature => 5
  | .unknown => 6

/-- The 192-bit reading record (30_encoding.md R74). -/
def Reading.record (r : Reading) : Record :=
  r.primary ++ (r.secondary ++ (BitVec.ofBool r.overloaded ++ (r.mode.code ++ (BitVec.ofBool r.pneg ++
    (BitVec.ofInt 5 r.pexp ++ (BitVec.ofNat 14 r.pmant ++ (BitVec.ofBool r.svalid ++
      (BitVec.ofInt 5 r.sexp ++ (BitVec.ofNat 14 r.smant ++ 0#20)))))))))

end Sys2Proof.Machine
end

