-- ==== Sys2Proof/Machine/Accumulator.lean ====
section
/-! DEFINITION. The bit accumulator commands (40_accumulator.md): NOP, CONFIGURE, PUSH_BIT, BIT_AT, BYTE_AT, SIZE
and RESET. Each meaning includes the part of the prologue that depends on the state (R101). -/

namespace Sys2Proof.Machine

/-- `NOP` (40_accumulator.md R100); it never answers `NOCFG`. -/
def execNop (s : State) : Host.Outcome State Fault Refusal := .next (respond .ok 0 s)

/-- `CONFIGURE E` (40_accumulator.md R102): a second configuration is `ILLEGAL`, an illegal length `RANGE`. -/
def execConfigure (e : Half) (s : State) : Host.Outcome State Fault Refusal :=
  .next (if s.cfg then answerIllegal s
    else if legalExp s.build e then respond .ok 0 (create e s)
    else respond .range 0 s)

/-- `PUSH_BIT v` (40_accumulator.md R104). -/
def execPushBit (v : Bool) (s : State) : Host.Outcome State Fault Refusal :=
  .next (whenConfigured (push v) s)

/-- `BIT_AT p` (40_accumulator.md R106). -/
def execBitAt (p : Half) (s : State) : Host.Outcome State Fault Refusal :=
  .next (whenConfigured (fun s =>
    if storeBits s.exp ≤ positionOf p then respond .range 0 s
    else respond .ok (zextBit (s.bitRead (positionOf p))) s) s)

/-- `BYTE_AT p` (40_accumulator.md R107): no partial read. -/
def execByteAt (p : Half) (s : State) : Host.Outcome State Fault Refusal :=
  .next (whenConfigured (fun s =>
    if storeBits s.exp < positionOf p + 8 then respond .range 0 s
    else respond .ok (zextByte (memRead8 s.bitRead (positionOf p))) s) s)

/-- `SIZE` (40_accumulator.md R108). -/
def execSize (s : State) : Host.Outcome State Fault Refusal :=
  .next (whenConfigured (fun s => respond .ok s.cursor s) s)

/-- `RESET` (40_accumulator.md R110). -/
def execReset (s : State) : Host.Outcome State Fault Refusal :=
  .next (whenConfigured (fun s => respond .ok 0 (accReset s)) s)

end Sys2Proof.Machine
end

