-- ==== Sys2Proof/Machine/Binary64.lean ====
section
/-! DEFINITION. The two floating-point operations of the block, `rnd64` and `neg64` (00_scope.md R14), and
`Primary64` (44_value_composition.md R196). The binary64 layout (30_encoding.md R76) is general knowledge. -/

namespace Sys2Proof.Machine

/-- The greatest integer `t` with `2^t ≤ num / den`, for `num` and `den` positive. -/
def floorLog2 (num den : Nat) : Int :=
  let t : Int := (Nat.log2 num : Int) - (Nat.log2 den : Int)
  if den * 2 ^ t.toNat ≤ num * 2 ^ (-t).toNat then t else t - 1

/-- The quotient `num / den` rounded to an integer, ties to the even one. -/
def roundEven (num den : Nat) : Nat :=
  let q := num / den
  let twice := 2 * (num % den)
  if den < twice ∨ (twice = den ∧ q % 2 = 1) then q + 1 else q

/-- `rnd64(num / den)` for `den` positive (00_scope.md R14): the significand is rounded at the weight of its last
place, `2^(e - 52)`, and a significand that rounds up to the next power of two carries into the exponent. Past
the largest finite value it is the infinity, which no command reaches (44_value_composition.md R197). -/
def rnd64 (num den : Nat) : F64 :=
  if num = 0 then 0
  else
    let e : Int := max (floorLog2 num den) (-1022)
    let m := roundEven (num * 2 ^ (52 - e).toNat) (den * 2 ^ (e - 52).toNat)
    BitVec.ofNat 64 (min ((e + 1022).toNat * 2 ^ 52 + m) (2047 * 2 ^ 52))

/-- `neg64(v)` flips bit 63 (00_scope.md R14). -/
def neg64 (v : F64) : F64 := v ^^^ 0x8000000000000000#64

/-- `Primary64(M, E, NEG)` (44_value_composition.md R196): the exact decimal is rounded once, then signed. -/
def primary64 (m : Nat) (e : Int) (neg : Bool) : F64 :=
  let x := rnd64 (m * 10 ^ e.toNat) (10 ^ (-e).toNat)
  if neg then neg64 x else x

/-- The biased exponent field, bits 62:52 (30_encoding.md R76). -/
def expField (v : F64) : Nat := (v.extractLsb' 52 11).toNat

/-- The fraction field, bits 51:0 (30_encoding.md R76). -/
def fracField (v : F64) : Nat := (v.extractLsb' 0 52).toNat

/-- A pattern that is neither an infinity nor a NaN. -/
def isFinite64 (v : F64) : Bool := expField v != 2047

/-- The rational a finite pattern stands for (30_encoding.md R76; general knowledge). No command computes it; the
claims about `rnd64` are stated with it. -/
def value64 (v : F64) : ℚ :=
  let hidden : ℚ := if expField v = 0 then 0 else 2 ^ 52
  let sign : ℚ := if v.getLsbD 63 then -1 else 1
  sign * (hidden + fracField v) * 2 ^ ((max (expField v) 1 : Int) - 1075)

end Sys2Proof.Machine
end

