-- ==== Sys2Proof/Machine/Extractor.lean ====
section
/-! DEFINITION. The field extractor (42_mode_exponent.md): mode and scale exponent, from the bits of a frame. A
flag is set when its bit reads 1 (30_encoding.md R71). -/

namespace Sys2Proof.Machine

/-- `ResolveMode()` (42_mode_exponent.md R150); `none` is `NONE`, on which the caller discards the frame. -/
def resolveMode (b : Build) (bit : Nat → Bool) : Option Mode :=
  if bit b.offV then some (if bit b.offAC then .voltageAC else .voltageDC)
  else if bit b.offI then some (if bit b.offAC then .currentAC else .currentDC)
  else if bit b.offR then some .resistance
  else if bit b.offT then some .temperature
  else none

/-- `ScaleExponent()` (42_mode_exponent.md R153): the first set flag in the listed order decides. -/
def scaleExponent (b : Build) (bit : Nat → Bool) : Int :=
  if bit b.offX6 then 6
  else if bit b.offX3 then 3
  else if bit b.offXM3 then -3
  else if bit b.offXM6 then -6
  else 0

/-- The modes in which the secondary field is decoded (44_value_composition.md R193). -/
def Mode.isAC : Mode → Bool
  | .voltageAC | .currentAC => true
  | .voltageDC | .currentDC | .resistance | .temperature | .unknown => false

end Sys2Proof.Machine
end

