-- ==== Sys2Proof/Machine/Segments.lean ====
section
/-! DEFINITION. The segment-pattern decoder and the primary digit scan (43_segment_digits.md). -/

namespace Sys2Proof.Machine

/-- `SegLookup(b)` (43_segment_digits.md R170); `none` is `NONE`. -/
def segLookup (t : SegTable) (code : Byte) : Option Symbol :=
  (t.entries.find? fun e => e.1 == code).map Prod.snd

/-- `DigitValue(s)` (43_segment_digits.md R172): an unmatched code and `OL` contribute 0. -/
def digitValue : Option Symbol → Nat
  | some (.digit d) => d.val
  | some .ol => 0
  | none => 0

/-- What the primary scan yields: `(ovl, N, shift, neg)` (43_segment_digits.md R174). -/
structure Scan where
  ovl : Bool
  n : Nat
  shift : Int
  neg : Bool
  deriving DecidableEq, Repr

/-- The symbol of primary digit `i`. -/
def primarySymbol (b : Build) (bit : Nat → Bool) (i : Fin 4) : Option Symbol :=
  segLookup b.segTable (memRead8 bit b.offDig[i])

/-- One pass of the scan's loop body below the overload test (43_segment_digits.md R174). -/
def scanDigit (b : Build) (bit : Nat → Bool) (i : Fin 4) (a : Scan) : Scan :=
  let f := bit b.offDot[i]
  { ovl := a.ovl
    n := a.n + digitValue (primarySymbol b bit i) * 10 ^ i.val
    shift := if i ≠ 3 ∧ f then a.shift - (i.val + 1) else a.shift
    neg := if i = 3 then f else a.neg }

/-- The scan's loop over the digit indices still to come; `OL` at index 1 stops it (43_segment_digits.md R174). -/
def scanFrom (b : Build) (bit : Nat → Bool) : List (Fin 4) → Scan → Scan
  | [], a => a
  | i :: is, a =>
    if i = 1 ∧ primarySymbol b bit i = some .ol then { a with ovl := true }
    else scanFrom b bit is (scanDigit b bit i a)

/-- `ScanPrimary()` (43_segment_digits.md R174). -/
def scanPrimary (b : Build) (bit : Nat → Bool) : Scan :=
  scanFrom b bit [0, 1, 2, 3] ⟨false, 0, 0, false⟩

end Sys2Proof.Machine
end

