-- ==== Sys2Proof/Machine/Composition.lean ====
section
/-! DEFINITION. Value composition and the secondary field (44_value_composition.md), and the whole decode of an
accepted frame, steps 2a to 2e of EN_EDGE (41_frame_control.md R133). -/

namespace Sys2Proof.Machine

/-- `(PMANT, PEXP, PNEG, PRIMARY)` (44_value_composition.md R190). -/
structure Primary where
  mant : Nat
  exp : Int
  neg : Bool
  value : F64
  deriving DecidableEq, Repr

/-- `ComposePrimary(ovl, N, scale, shift, neg)` (44_value_composition.md R190): an overloaded value is neither
scaled nor signed. -/
def composePrimary (a : Scan) (scale : Int) : Primary :=
  let e := if a.ovl then 0 else scale + a.shift
  let neg := if a.ovl then false else a.neg
  ⟨a.n, e, neg, primary64 a.n e neg⟩

/-- `(SVALID, SMANT, SEXP, SECONDARY)` (44_value_composition.md R193). -/
structure Secondary where
  valid : Bool
  mant : Nat
  exp : Int
  value : F64
  deriving DecidableEq, Repr

/-- The symbol of secondary digit `i`. -/
def secondarySymbol (b : Build) (bit : Nat → Bool) (i : Fin 4) : Option Symbol :=
  segLookup b.segTable (memRead8 bit b.offSDig[i])

/-- The secondary digit sum, digit `i` weighted `10^i` (44_value_composition.md R193). -/
def secondarySum (b : Build) (bit : Nat → Bool) : Nat :=
  (([0, 1, 2, 3] : List (Fin 4)).map fun i => digitValue (secondarySymbol b bit i) * 10 ^ i.val).sum

/-- The secondary decimal-point shift: every set flag subtracts its `i + 1` (44_value_composition.md R193). -/
def secondaryShift (b : Build) (bit : Nat → Bool) : Int :=
  (([0, 1, 2] : List (Fin 3)).map fun i => if bit b.offSDot[i] then -((i.val : Int) + 1) else 0).sum

/-- `DecodeSecondary(mode)` (44_value_composition.md R193). -/
def decodeSecondary (b : Build) (bit : Nat → Bool) (mode : Mode) : Secondary :=
  if mode.isAC then
    let n := secondarySum b bit
    let e := (if bit b.offSX3 then 3 else 0) + secondaryShift b bit
    ⟨true, n, e, primary64 n e false⟩
  else ⟨false, 0, 0, 0⟩

/-- The reading of an accepted frame whose mode is `mode` (41_frame_control.md R133, steps 2b to 2e). -/
def readingOf (b : Build) (bit : Nat → Bool) (mode : Mode) : Reading :=
  let a := scanPrimary b bit
  let p := composePrimary a (scaleExponent b bit)
  let q := decodeSecondary b bit mode
  { primary := p.value, secondary := q.value, overloaded := a.ovl, mode := mode, pneg := p.neg, pexp := p.exp,
    pmant := p.mant, svalid := q.valid, sexp := q.exp, smant := q.mant }

/-- `Decode` of 41_frame_control.md R139: steps 2a to 2e applied to the bits of a frame. -/
def decodeFrame (b : Build) (bit : Nat → Bool) : Option Reading :=
  (resolveMode b bit).map (readingOf b bit)

/-- The positions the decoder may read (30_encoding.md R70): flags, and eight positions for each code. -/
def fieldPositions (b : Build) : List Nat :=
  flagOffsets b ++ (codeOffsets b).flatMap fun o => (List.range 8).map (o + ·)

end Sys2Proof.Machine
end

