-- ==== Sys2Proof/Machine/FrameControl.lean ====
section
/-! DEFINITION. The frame control commands (41_frame_control.md): CLK_EDGE and EN_EDGE. -/

namespace Sys2Proof.Machine

/-- `CLK_EDGE` (41_frame_control.md R131): PUSH_BIT's body on the sampled data level. -/
def execClkEdge (s : State) : Host.Outcome State Fault Refusal :=
  .next (whenConfigured (fun s => push s.sampledData s) s)

/-- The readings of the frame in the storage: none when its length is wrong or no mode flag is set
(41_frame_control.md R133, steps 1 to 2e; R137). -/
def frameReading (s : State) : Option Reading :=
  if malformedLength s then none else decodeFrame s.build s.bitRead

/-- Step 3 of EN_EDGE: an accepted frame's reading goes on the dispatch port, a discarded frame leaves it alone
(41_frame_control.md R135, R137). -/
def dispatchReading (r : Option Reading) (s : State) : State :=
  match r with
  | some r => emit r s
  | none => s

/-- `EN_EDGE` (41_frame_control.md R133): check, decode, dispatch, then `AccReset()` on every path. -/
def execEnEdge (s : State) : Host.Outcome State Fault Refusal :=
  .next (whenConfigured (fun s => respond .ok 0 (accReset (dispatchReading (frameReading s) s))) s)

end Sys2Proof.Machine
end

