-- ==== Sys2Proof/Machine/Dispatch.lean ====
section
/-! DEFINITION. One arm per command of the opcode table. -/

namespace Sys2Proof.Machine

def exec (i : Instr) (s : State) : Host.Outcome State Fault Refusal :=
  match i with
  | .nop => Sys2Proof.Machine.execNop s
  | .configure e => Sys2Proof.Machine.execConfigure e s
  | .pushBit v => Sys2Proof.Machine.execPushBit v s
  | .bitAt p => Sys2Proof.Machine.execBitAt p s
  | .byteAt p => Sys2Proof.Machine.execByteAt p s
  | .size => Sys2Proof.Machine.execSize s
  | .reset => Sys2Proof.Machine.execReset s
  | .clkEdge => Sys2Proof.Machine.execClkEdge s
  | .enEdge => Sys2Proof.Machine.execEnEdge s

end Sys2Proof.Machine
end

