-- ==== Sys2Proof/Machine/Step.lean ====
section
/-! DEFINITION. The step of the block: one command word per step (30_encoding.md R60), each command one atomic
step, in arrival order (00_scope.md R3, 20_memory.md R49, R52). -/

namespace Sys2Proof.Machine

/-- One step (40_accumulator.md R101): the next command of the port is decoded and performed; a word that is not
well-encoded answers `ILLEGAL`; with no command delivered the block is idle (log entry 2). -/
def step (s : State) : Host.Outcome State Fault Refusal :=
  match s.pending with
  | [] => .next (idle s)
  | d :: rest =>
    match decode d.word with
    | .command i => exec i (deliver d rest s)
    | .illegal _ => .next (answerIllegal (deliver d rest s))

/-- The state whose next step takes the word `w` off the command port: it stands at the head of the commands not
yet delivered, in the place of what stood there; the data level with it is the present one. -/
def State.withFetchWord (s : State) (nbits w : Nat) : State :=
  { s with pending := ⟨BitVec.ofNat 32 (w % 2 ^ nbits), s.sampledData⟩ :: s.pending.tail }

end Sys2Proof.Machine
end

