-- ==== Sys2Proof/Machine/Pins.lean ====
section
/-! DEFINITION. The pin wrapper of the host (41_frame_control.md R130, 60_exceptions.md R225, R227): which
commands a change of the meter's lines becomes. It stands outside the block: the block detects no edge, and the
step never calls it. -/

namespace Sys2Proof.Machine

/-- The levels of the clock and enable lines before and after a change, and the data line's level at it. -/
structure LineChange where
  clockBefore : Bool
  clockAfter : Bool
  enableBefore : Bool
  enableAfter : Bool
  data : Bool
  deriving DecidableEq, Repr

/-- A falling edge of the clock line (41_frame_control.md R130). -/
def LineChange.clockFalls (c : LineChange) : Bool := c.clockBefore && !c.clockAfter

/-- A change of the enable line, in either direction (41_frame_control.md R130). -/
def LineChange.enableChanges (c : LineChange) : Bool := c.enableBefore != c.enableAfter

/-- A CLK_EDGE command with the sampled data level. -/
def clockDelivery (data : Bool) : Delivery := ⟨encode .clkEdge, data⟩

/-- An EN_EDGE command; the level that stands with it is read by no rule. -/
def enableDelivery (data : Bool) : Delivery := ⟨encode .enEdge, data⟩

/-- The deliveries the wrapper may make of a line change, as a list of the admitted ones: with both edges at
once either order is admitted (60_exceptions.md R227, 92_eei_decisions.md D27). -/
def pinWrapper (c : LineChange) : List (List Delivery) :=
  match c.clockFalls, c.enableChanges with
  | false, false => [[]]
  | true, false => [[clockDelivery c.data]]
  | false, true => [[enableDelivery c.data]]
  | true, true =>
    [[clockDelivery c.data, enableDelivery c.data], [enableDelivery c.data, clockDelivery c.data]]

end Sys2Proof.Machine
end

