-- ==== Sys2Proof/Machine/Trace.lean ====
section
/-! DEFINITION. What a host sees of several steps: the readings emitted, in order (41_frame_control.md R135: "a
step's observable output is the list of readings emitted"). -/

namespace Sys2Proof.Machine

/-- The readings emitted in `n` steps from `s`, in order, with the state after them; `none` if a step stops. -/
def runReadings : Nat → State → Option (List Reading × State)
  | 0, s => some ([], s)
  | n + 1, s =>
    match step s with
    | .next t => (runReadings n t).map fun r => (t.dispatch ++ r.1, r.2)
    | .fault _ => none
    | .refused _ => none

end Sys2Proof.Machine
end

