-- ==== Sys2Proof/Safety.lean ====
section
/-! DEFINITION. What a good state is: the invariants of 10_state.md R28, the legal lengths of R24, the storage
past the window of R27, and the canonical form of the storage. -/

namespace Sys2Proof.Machine

/-- (I-a) of 10_state.md R28. -/
def UnconfiguredIsEmpty (s : State) : Prop := s.cfg = false → s.cursor = 0 ∧ s.ovf = false

/-- (I-b) of 10_state.md R28. -/
def CursorInCapacity (s : State) : Prop := s.cfg = true → s.cursor.toNat ≤ s.exp.toNat

/-- (I-c) of 10_state.md R28. -/
def OverflowOnlyWhenFull (s : State) : Prop := s.ovf = true → s.cursor = s.exp

/-- (I-d) of 10_state.md R28. -/
def ZeroPastCursor (s : State) : Prop :=
  ∀ p, s.cursor.toNat ≤ p → p < storeBits s.exp → s.bitRead p = false

/-- The four invariants of 10_state.md R28 together. -/
def AccumulatorInvariants (s : State) : Prop :=
  UnconfiguredIsEmpty s ∧ CursorInCapacity s ∧ OverflowOnlyWhenFull s ∧ ZeroPastCursor s

/-- The legal values of `S.EXP` once configured (10_state.md R24). -/
def LegalLength (s : State) : Prop :=
  s.cfg = true → 1 ≤ s.exp.toNat ∧ s.exp.toNat ≤ s.build.maxFrameBits ∧ frameFit s.build s.exp = true

/-- Once configured, the positions past the window are 0 (10_state.md R27). -/
def ZeroPastWindow (s : State) : Prop :=
  s.cfg = true → ∀ p, storeBits s.exp ≤ p → p < physBits s.build → s.bitRead p = false

/-- The storage lies in its canonical form, inside the preallocated bytes (10_state.md R27). -/
def StoreWellFormed (s : State) : Prop :=
  Memory.wf s.store ∧ ∀ c ∈ s.store, c.1 < physBytes s.build

/-- A state in which every invariant of the block holds. -/
structure Safe (s : State) : Prop where
  accumulator : AccumulatorInvariants s
  length : LegalLength s
  padding : ZeroPastWindow s
  store : StoreWellFormed s

/-! ### The terms of the claims about one command -/

/-- The five fields of `S` are unchanged (10_state.md R20). -/
structure SameBlock (s t : State) : Prop where
  cfg : t.cfg = s.cfg
  exp : t.exp = s.exp
  cursor : t.cursor = s.cursor
  ovf : t.ovf = s.ovf
  store : t.store = s.store

/-- The command is answered with a status and data, `OVF` being the flag after it (30_encoding.md R64); the
parameters and the inputs are unchanged. -/
structure Answered (s t : State) (status : Status) (data : Half) : Prop where
  response : t.response = some ⟨status, t.ovf, data⟩
  build : t.build = s.build
  pending : t.pending = s.pending
  sampledData : t.sampledData = s.sampledData

/-- `AccReset()` has been done (40_accumulator.md R110). -/
structure Cleared (s t : State) : Prop where
  cfg : t.cfg = s.cfg
  exp : t.exp = s.exp
  cursor : t.cursor = 0
  ovf : t.ovf = false
  window : ∀ p, p < storeBits s.exp → t.bitRead p = false
  beyond : ∀ p, storeBits s.exp ≤ p → t.bitRead p = s.bitRead p

/-- One bit has been pushed below capacity (40_accumulator.md R104). -/
structure Appended (v : Bool) (s t : State) : Prop where
  cfg : t.cfg = s.cfg
  exp : t.exp = s.exp
  cursor : t.cursor = s.cursor + 1
  ovf : t.ovf = s.ovf
  written : t.bitRead s.cursor.toNat = (s.bitRead s.cursor.toNat || v)
  others : ∀ p, p ≠ s.cursor.toNat → t.bitRead p = s.bitRead p

/-- A push at capacity has been dropped and has set the flag (40_accumulator.md R104). -/
structure Dropped (s t : State) : Prop where
  cfg : t.cfg = s.cfg
  exp : t.exp = s.exp
  cursor : t.cursor = s.cursor
  ovf : t.ovf = true
  store : t.store = s.store

/-- An accepted CONFIGURE has been done (40_accumulator.md R102). -/
structure Configured (e : Half) (s t : State) : Prop where
  cfg : t.cfg = true
  exp : t.exp = e
  cursor : t.cursor = 0
  ovf : t.ovf = false
  zeroed : ∀ p, p < physBits s.build → t.bitRead p = false
  beyond : ∀ p, physBits s.build ≤ p → t.bitRead p = s.bitRead p

end Sys2Proof.Machine
end

