-- ==== Sys2Proof/Certificates/Slice0/Obligations.lean ====
section
/-! DEFINITION. The statements for the provers. Each docstring names the rules of the spec it rests on. -/

open Sys2Proof Sys2Proof.Machine

/-! ### Encoding -/

/-- Every command is what its word decodes to, with every operand (30_encoding.md R61, R62). -/
def Obligations.DecodeOfEncodeIsTheCommand : Prop :=
  ∀ i : Instr, decode (encode i) = .command i

/-- A word decodes to at most the command whose word it is: no bit of a legal word is ignored (30_encoding.md R63). -/
def Obligations.EncodeOfDecodeIsTheWord : Prop :=
  ∀ (w : Word) (i : Instr), decode w = .command i → encode i = w

/-- 30_encoding.md R63: which words are legal, that legality depends on the word alone but for a second CONFIGURE,
and that a word that is not well-encoded changes nothing. -/
def Obligations.LegalityIsWellEncoding : Prop :=
  (∀ w : Word, (∃ i, decode w = .command i) ↔
    (w.extractLsb 31 28 ≤ 0x8#4 ∧ w.extractLsb 27 16 = 0#12 ∧
      w.extractLsb 15 0 &&& mustBeZero (w.extractLsb 31 28) = 0#16)) ∧
  (∀ (s : State) (d : Delivery) (rest : List Delivery), s.pending = d :: rest →
    ∃ t r, step s = .next t ∧ t.response = some r ∧
      (r.status = .illegal ↔
        (wellEncoded d.word = false ∨ (d.word.extractLsb 31 28 = 0x1#4 ∧ s.cfg = true))) ∧
      (wellEncoded d.word = false → SameBlock s t ∧ t.dispatch = []))

/-- The decoder agrees with every row of the opcode table (30_encoding.md R62). -/
def Obligations.DecoderAgreesWithOpcodeTable : Prop :=
  ∀ row ∈ opcodeTable, ∀ w : Word,
    w &&& row.mask = row.pattern ↔ ∃ i, decode w = .command i ∧ mnemonic i = row.mnemonic

/-- Words written out from the encoding table decode to the commands they stand for (30_encoding.md R62, R66, R68). -/
def Obligations.SampleWordsDecode : Prop :=
  decode 0x00000000 = .command .nop ∧ decode 0x10000089 = .command (.configure 137) ∧
  decode 0x20000001 = .command (.pushBit true) ∧ decode 0x30000097 = .command (.bitAt 151) ∧
  decode 0x40000090 = .command (.byteAt 144) ∧ decode 0x50000000 = .command .size ∧
  decode 0x60000000 = .command .reset ∧ decode 0x70000000 = .command .clkEdge ∧
  decode 0x80000000 = .command .enEdge ∧ decode 0x90000000 = .illegal .reservedOp

/-! ### The step and its answers -/

/-- A delivered command that decodes is executed, with its data level, on the state without it (00_scope.md R3,
40_accumulator.md R101). -/
def Obligations.StepRunsTheDecodedCommand : Prop :=
  ∀ (s : State) (d : Delivery) (rest : List Delivery) (i : Instr),
    s.pending = d :: rest → decode d.word = .command i →
      step s = exec i { s with pending := rest, sampledData := d.sampled, response := none, dispatch := [] }

/-- No step stops: the block raises no exception (60_exceptions.md R220). Where a command is delivered, the step takes
exactly that one, in arrival order, and answers it. That a step with no command delivered gives no answer is the
model's choice (log entry 2). -/
def Obligations.EveryStepAnswersOneCommand : Prop :=
  ∀ s : State, ∃ t, step s = .next t ∧ t.pending = s.pending.tail ∧ t.build = s.build ∧
    (t.response.isSome ↔ s.pending ≠ [])

/-- With no command delivered nothing changes and nothing is answered or emitted (60_exceptions.md R230, R234; the
model's choice, log entry 2). -/
def Obligations.IdleBlockKeepsItsState : Prop :=
  ∀ s : State, s.pending = [] →
    ∃ t, step s = .next t ∧ SameBlock s t ∧ t.build = s.build ∧ t.pending = [] ∧ t.response = none ∧ t.dispatch = []

/-- 30_encoding.md R64: every command gives one response word in its own step, the word's fields, `OVF` after the
command, and `DATA` 0 when the status is not `OK` and for commands without a result. -/
def Obligations.ResponseWordIsAsLaidOut : Prop :=
  (∀ r : Response,
    r.word.extractLsb 31 30 = (match r.status with | .ok => 0b00#2 | .illegal => 0b01#2 | .range => 0b10#2 | .nocfg => 0b11#2) ∧
    r.word.extractLsb 29 17 = 0#13 ∧ r.word.getLsbD 16 = r.ovf ∧ r.word.extractLsb 15 0 = r.data) ∧
  (∀ (s : State) (d : Delivery) (rest : List Delivery), s.pending = d :: rest →
    ∃ t r, step s = .next t ∧ t.response = some r ∧ r.ovf = t.ovf ∧
      (r.status ≠ .ok → r.data = 0) ∧
      (d.word.extractLsb 31 28 ≠ 0x3#4 → d.word.extractLsb 31 28 ≠ 0x4#4 → d.word.extractLsb 31 28 ≠ 0x5#4 →
        r.data = 0))

/-- 30_encoding.md R65 and 60_exceptions.md R224: the status of a command is the first that applies. -/
def Obligations.StatusIsTheFirstThatApplies : Prop :=
  ∀ (s : State) (d : Delivery) (rest : List Delivery), s.pending = d :: rest →
    ∃ t r, step s = .next t ∧ t.response = some r ∧
      let op := d.word.extractLsb 31 28
      let opnd := (d.word.extractLsb 15 0).toNat
      ((wellEncoded d.word = false ∨ (op = 0x1#4 ∧ s.cfg = true)) → r.status = .illegal) ∧
      (wellEncoded d.word = true → s.cfg = false → op ≠ 0x0#4 → op ≠ 0x1#4 → r.status = .nocfg) ∧
      (wellEncoded d.word = true → s.cfg = false → op = 0x1#4 →
        r.status = if opnd = 0 ∨ s.build.maxFrameBits < opnd ∨ frameFit s.build (d.word.extractLsb 15 0) = false
          then .range else .ok) ∧
      (wellEncoded d.word = true → s.cfg = true → op = 0x3#4 →
        r.status = if storeBits s.exp ≤ opnd then .range else .ok) ∧
      (wellEncoded d.word = true → s.cfg = true → op = 0x4#4 →
        r.status = if storeBits s.exp < opnd + 8 then .range else .ok) ∧
      (wellEncoded d.word = true → op = 0x0#4 → r.status = .ok) ∧
      (wellEncoded d.word = true → s.cfg = true → op ≠ 0x1#4 → op ≠ 0x3#4 → op ≠ 0x4#4 → r.status = .ok)

/-- A command answered `ILLEGAL`, `NOCFG` or `RANGE` has no effect (60_exceptions.md R221). -/
def Obligations.RefusedCommandsHaveNoEffect : Prop :=
  ∀ (s t : State) (r : Response), step s = .next t → t.response = some r → r.status ≠ .ok →
    SameBlock s t ∧ t.dispatch = [] ∧ r.data = 0

/-- 60_exceptions.md R222: without configuration every command but NOP and CONFIGURE answers `NOCFG` and does
nothing, and those two can run. -/
def Obligations.UnconfiguredCommandsAnswerNocfg : Prop :=
  ∀ (s : State) (i : Instr), s.cfg = false →
    (i ≠ .nop → (∀ e, i ≠ .configure e) →
      ∃ t, exec i s = .next t ∧ SameBlock s t ∧ Answered s t .nocfg 0 ∧ t.dispatch = s.dispatch) ∧
    ((i = .nop ∨ ∃ e, i = .configure e) →
      ∃ t r, exec i s = .next t ∧ t.response = some r ∧ r.status ≠ .nocfg)

/-! ### The accumulator commands -/

/-- 40_accumulator.md R100: NOP does nothing, configured or not. -/
def Obligations.NopDoesNothing : Prop :=
  (∀ w, decode w = .command .nop ↔ w = 0x00000000) ∧
  (∀ s : State, ∃ t, exec .nop s = .next t ∧ SameBlock s t ∧ Answered s t .ok 0 ∧ t.dispatch = s.dispatch)

/-- 40_accumulator.md R102: CONFIGURE, accepted, out of range, and a second time. -/
def Obligations.ConfigureCreatesTheAccumulator : Prop :=
  ∀ e : Half,
    (∀ w, decode w = .command (.configure e) ↔ w = 0x10000000 ||| e.setWidth 32) ∧
    (∀ s : State, s.cfg = true →
      ∃ t, exec (.configure e) s = .next t ∧ SameBlock s t ∧ Answered s t .illegal 0 ∧ t.dispatch = s.dispatch) ∧
    (∀ s : State, s.cfg = false →
      (e.toNat = 0 ∨ s.build.maxFrameBits < e.toNat ∨ frameFit s.build e = false) →
      ∃ t, exec (.configure e) s = .next t ∧ SameBlock s t ∧ Answered s t .range 0 ∧ t.dispatch = s.dispatch) ∧
    (∀ s : State, s.cfg = false → 1 ≤ e.toNat → e.toNat ≤ s.build.maxFrameBits → frameFit s.build e = true →
      ∃ t, exec (.configure e) s = .next t ∧ Configured e s t ∧ Answered s t .ok 0 ∧ t.dispatch = s.dispatch)

/-- `FRAME_FIT(E)` says that every position the decoder may read lies in the frame (00_scope.md R8, 30_encoding.md
R71). -/
def Obligations.FrameFitBoundsEveryField : Prop :=
  ∀ (b : Build) (e : Half), frameFit b e = true ↔ ∀ p ∈ fieldPositions b, p < e.toNat

/-- 40_accumulator.md R104: PUSH_BIT appends below capacity, and at capacity drops the bit and sets `S.OVF`. -/
def Obligations.PushBitAppendsOrOverflows : Prop :=
  ∀ v : Bool,
    (∀ w, decode w = .command (.pushBit v) ↔ w = if v then 0x20000001 else 0x20000000) ∧
    (∀ s : State, s.cfg = false →
      ∃ t, exec (.pushBit v) s = .next t ∧ SameBlock s t ∧ Answered s t .nocfg 0 ∧ t.dispatch = s.dispatch) ∧
    (∀ s : State, s.cfg = true → s.cursor ≠ s.exp →
      ∃ t, exec (.pushBit v) s = .next t ∧ Appended v s t ∧ Answered s t .ok 0 ∧ t.dispatch = s.dispatch) ∧
    (∀ s : State, s.cfg = true → s.cursor = s.exp →
      ∃ t, exec (.pushBit v) s = .next t ∧ Dropped s t ∧ Answered s t .ok 0 ∧ t.dispatch = s.dispatch)

/-- 40_accumulator.md R106: BIT_AT reads one bit of the window and changes nothing; at or past the cursor it reads 0
(10_state.md R28 I-d). -/
def Obligations.BitAtReadsOneBit : Prop :=
  ∀ p : Half,
    (∀ w, decode w = .command (.bitAt p) ↔ w = 0x30000000 ||| p.setWidth 32) ∧
    (∀ s : State, s.cfg = false →
      ∃ t, exec (.bitAt p) s = .next t ∧ SameBlock s t ∧ Answered s t .nocfg 0 ∧ t.dispatch = s.dispatch) ∧
    (∀ s : State, s.cfg = true → storeBits s.exp ≤ p.toNat →
      ∃ t, exec (.bitAt p) s = .next t ∧ SameBlock s t ∧ Answered s t .range 0 ∧ t.dispatch = s.dispatch) ∧
    (∀ s : State, s.cfg = true → p.toNat < storeBits s.exp →
      ∃ t, exec (.bitAt p) s = .next t ∧ SameBlock s t ∧
        Answered s t .ok (if s.bitRead p.toNat then 1 else 0) ∧ t.dispatch = s.dispatch ∧
        (ZeroPastCursor s → s.cursor.toNat ≤ p.toNat → t.response = some ⟨.ok, s.ovf, 0⟩))

/-- 40_accumulator.md R107 and 20_memory.md R43: BYTE_AT reads eight bits, the first as bit 7, and is always in
range from a position inside the frame. -/
def Obligations.ByteAtReadsEightBits : Prop :=
  ∀ p : Half,
    (∀ w, decode w = .command (.byteAt p) ↔ w = 0x40000000 ||| p.setWidth 32) ∧
    (∀ s : State, s.cfg = false →
      ∃ t, exec (.byteAt p) s = .next t ∧ SameBlock s t ∧ Answered s t .nocfg 0 ∧ t.dispatch = s.dispatch) ∧
    (∀ s : State, s.cfg = true → storeBits s.exp < p.toNat + 8 →
      ∃ t, exec (.byteAt p) s = .next t ∧ SameBlock s t ∧ Answered s t .range 0 ∧ t.dispatch = s.dispatch) ∧
    (∀ s : State, s.cfg = true → p.toNat + 8 ≤ storeBits s.exp →
      ∃ t data, exec (.byteAt p) s = .next t ∧ SameBlock s t ∧ Answered s t .ok data ∧ t.dispatch = s.dispatch ∧
        (∀ k, k < 8 → data.getLsbD (7 - k) = s.bitRead (p.toNat + k)) ∧ data.extractLsb 15 8 = 0#8 ∧
        (ZeroPastCursor s → ∀ k, k < 8 → s.cursor.toNat ≤ p.toNat + k → data.getLsbD (7 - k) = false)) ∧
    (∀ e : Half, p.toNat < e.toNat → p.toNat + 8 ≤ storeBits e)

/-- 40_accumulator.md R108: SIZE answers the write cursor; after an overflow that is `EXP`, with the flag shown. -/
def Obligations.SizeAnswersTheCursor : Prop :=
  (∀ w, decode w = .command .size ↔ w = 0x50000000) ∧
  (∀ s : State, s.cfg = false →
    ∃ t, exec .size s = .next t ∧ SameBlock s t ∧ Answered s t .nocfg 0 ∧ t.dispatch = s.dispatch) ∧
  (∀ s : State, s.cfg = true →
    ∃ t, exec .size s = .next t ∧ SameBlock s t ∧ Answered s t .ok s.cursor ∧ t.dispatch = s.dispatch ∧
      (OverflowOnlyWhenFull s → s.ovf = true → t.response = some ⟨.ok, true, s.exp⟩))

/-- 40_accumulator.md R110: RESET zeroes the window, the cursor and `S.OVF`, and keeps the rest. -/
def Obligations.ResetClearsTheWindow : Prop :=
  (∀ w, decode w = .command .reset ↔ w = 0x60000000) ∧
  (∀ s : State, s.cfg = false →
    ∃ t, exec .reset s = .next t ∧ SameBlock s t ∧ Answered s t .nocfg 0 ∧ t.dispatch = s.dispatch) ∧
  (∀ s : State, s.cfg = true →
    ∃ t, exec .reset s = .next t ∧ Cleared s t ∧ Answered s t .ok 0 ∧ t.dispatch = s.dispatch)

/-- A read gives the same answer again and leaves no trace but the answer (20_memory.md R48, 60_exceptions.md R233). -/
def Obligations.ReadsAreIdempotent : Prop :=
  ∀ (i : Instr) (s t : State),
    (i = .nop ∨ i = .size ∨ (∃ p, i = .bitAt p) ∨ ∃ p, i = .byteAt p) →
      exec i s = .next t → exec i t = .next t ∧ SameBlock s t

/-! ### The frame control commands -/

/-- 41_frame_control.md R131 and R132: CLK_EDGE is a push of the sampled data level. -/
def Obligations.ClkEdgePushesTheSampledBit : Prop :=
  (∀ w, decode w = .command .clkEdge ↔ w = 0x70000000) ∧
  (∀ s : State, s.cfg = false →
    ∃ t, exec .clkEdge s = .next t ∧ SameBlock s t ∧ Answered s t .nocfg 0 ∧ t.dispatch = s.dispatch) ∧
  (∀ s : State, s.cfg = true →
    ∃ t, exec .clkEdge s = .next t ∧ Answered s t .ok 0 ∧ t.dispatch = s.dispatch ∧
      (s.cursor ≠ s.exp → Appended s.sampledData s t) ∧ (s.cursor = s.exp → Dropped s t)) ∧
  (∀ s : State, exec .clkEdge s = exec (.pushBit s.sampledData) s)

/-- 41_frame_control.md R133: EN_EDGE checks the length and the mode, dispatches the reading of an accepted frame as
its decode functions give it, and resets the accumulator on every path. -/
def Obligations.EnEdgeDecodesDispatchesAndResets : Prop :=
  (∀ w, decode w = .command .enEdge ↔ w = 0x80000000) ∧
  (∀ s : State, s.cfg = false →
    ∃ t, exec .enEdge s = .next t ∧ SameBlock s t ∧ Answered s t .nocfg 0 ∧ t.dispatch = s.dispatch) ∧
  (∀ s : State, s.cfg = true →
    ∃ t, exec .enEdge s = .next t ∧ Cleared s t ∧ Answered s t .ok 0 ∧
      ((s.ovf = true ∨ s.cursor ≠ s.exp) → t.dispatch = s.dispatch) ∧
      (s.ovf = false → s.cursor = s.exp → resolveMode s.build s.bitRead = none → t.dispatch = s.dispatch) ∧
      (∀ mode, s.ovf = false → s.cursor = s.exp → resolveMode s.build s.bitRead = some mode →
        ∃ r, t.dispatch = s.dispatch ++ [r] ∧ r.mode = mode ∧
          r.overloaded = (scanPrimary s.build s.bitRead).ovl ∧
          ⟨r.pmant, r.pexp, r.pneg, r.primary⟩ =
            composePrimary (scanPrimary s.build s.bitRead) (scaleExponent s.build s.bitRead) ∧
          ⟨r.svalid, r.smant, r.sexp, r.secondary⟩ = decodeSecondary s.build s.bitRead mode))

/-- 41_frame_control.md R135: one reading per accepted frame, in the step of the EN_EDGE, and none in any other step. -/
def Obligations.OneReadingPerAcceptedFrame : Prop :=
  ∀ s t : State, step s = .next t →
    (t.dispatch = [] ∨ ∃ r, t.dispatch = [r]) ∧
    (t.dispatch ≠ [] ↔
      (∃ d rest, s.pending = d :: rest ∧ decode d.word = .command .enEdge) ∧ s.cfg = true ∧ s.ovf = false ∧
        s.cursor = s.exp ∧ resolveMode s.build s.bitRead ≠ none)

/-- 41_frame_control.md R137: a discard is silent. Whatever frames two blocks held, accepted or discarded on either path,
the EN_EDGE leaves them alike but for the readings on the dispatch port: both are reset, answer `OK`, and give the same
next step. Both discard paths emit nothing. -/
def Obligations.DiscardPathsLookAlike : Prop :=
  ∀ (s₁ s₂ t₁ t₂ : State) (d : Delivery) (rest : List Delivery),
    Safe s₁ → Safe s₂ → s₁.cfg = true → s₂.cfg = true → s₁.exp = s₂.exp → s₁.build = s₂.build →
    s₁.pending = d :: rest → s₂.pending = d :: rest → decode d.word = .command .enEdge →
    step s₁ = .next t₁ → step s₂ = .next t₂ →
      t₂ = { t₁ with dispatch := t₂.dispatch } ∧ step t₁ = step t₂ ∧
      Cleared s₁ t₁ ∧ t₁.response = some ⟨.ok, false, 0⟩ ∧
      ((s₁.ovf = true ∨ s₁.cursor ≠ s₁.exp) → t₁.dispatch = []) ∧
      (resolveMode s₁.build s₁.bitRead = none → t₁.dispatch = [])

/-- 41_frame_control.md R139, the frame law: `n` clock edges from an empty accumulator, then an enable edge. -/
def Obligations.FrameLaw : Prop :=
  ∀ (s : State) (bits : List Bool) (level : Bool) (rest : List Delivery),
    Safe s → s.cfg = true → s.cursor = 0 →
    s.pending = bits.map (fun v => ⟨0x70000000, v⟩) ++ ⟨0x80000000, level⟩ :: rest →
    ∃ rs t, runReadings (bits.length + 1) s = some (rs, t) ∧
      t.cursor = 0 ∧ t.ovf = false ∧ t.pending = rest ∧
      (bits.length ≠ s.exp.toNat → rs = []) ∧
      (bits.length = s.exp.toNat → rs = (decodeFrame s.build fun p => bits.getD p false).toList)

/-- 40_accumulator.md R111, the push/read laws: after any bits pushed by PUSH_BIT or CLK_EDGE from an empty
accumulator, below and above capacity. A push is given by its bit, whether it is a clock edge, and the data level
that stands beside a PUSH_BIT. -/
def Obligations.PushReadLaws : Prop :=
  ∀ (s : State) (pushes : List (Bool × Bool × Bool)) (rest : List Delivery),
    Safe s → s.cfg = true → s.cursor = 0 →
    s.pending = pushes.map (fun a =>
      if a.2.1 then ⟨0x70000000, a.1⟩ else ⟨if a.1 then 0x20000001 else 0x20000000, a.2.2⟩) ++ rest →
    ∃ t, runReadings pushes.length s = some ([], t) ∧ t.pending = rest ∧ t.exp = s.exp ∧
      t.ovf = decide (s.exp.toNat < pushes.length) ∧
      (let bit := fun p => if p < s.exp.toNat then (pushes.map Prod.fst).getD p false else false
       (∃ u, exec .size t = .next u ∧
          u.response = some ⟨.ok, t.ovf, BitVec.ofNat 16 (min pushes.length s.exp.toNat)⟩) ∧
       (∀ p, p < storeBits s.exp → t.bitRead p = bit p) ∧
       (∀ p : Half, p.toNat + 8 ≤ storeBits s.exp → ∃ u data, exec (.byteAt p) t = .next u ∧
          u.response = some ⟨.ok, t.ovf, data⟩ ∧
          data.toNat = ((List.range 8).map fun k => (bit (p.toNat + k)).toNat * 2 ^ (7 - k)).sum)) ∧
      (∃ u, exec .reset t = .next u ∧
        (∃ v, exec .size u = .next v ∧ v.response = some ⟨.ok, false, 0⟩) ∧
        (∀ p : Half, p.toNat < storeBits s.exp →
          ∃ v, exec (.bitAt p) u = .next v ∧ v.response = some ⟨.ok, false, 0⟩) ∧
        (∀ p : Half, p.toNat + 8 ≤ storeBits s.exp →
          ∃ v, exec (.byteAt p) u = .next v ∧ v.response = some ⟨.ok, false, 0⟩))

/-- 40_accumulator.md R109: outside RESET, EN_EDGE and CONFIGURE the cursor never decreases; an accepted push raises
it by one or leaves it at `EXP`. -/
def Obligations.CursorIsMonotone : Prop :=
  ∀ (s t : State) (i : Instr), CursorInCapacity s → exec i s = .next t →
    i ≠ .reset → i ≠ .enEdge → (∀ e, i ≠ .configure e) →
      s.cursor.toNat ≤ t.cursor.toNat ∧
      (s.cfg = true → (i = .clkEdge ∨ ∃ v, i = .pushBit v) →
        (t.cursor.toNat = s.cursor.toNat + 1 ∧ s.cursor ≠ s.exp) ∨ (t.cursor = s.exp ∧ s.cursor = s.exp))

/-! ### The pins -/

/-- 41_frame_control.md R130: one CLK_EDGE on each falling clock edge, with the data level at it, one EN_EDGE on each
change of the enable line in either direction, nothing else; some list of deliveries is admitted for every change. -/
def Obligations.PinWrapperDeliversEdges : Prop :=
  ∀ c : LineChange, pinWrapper c ≠ [] ∧ ∀ ds ∈ pinWrapper c,
    (ds.filter fun d => decode d.word == .command .clkEdge) =
      (if c.clockBefore = true ∧ c.clockAfter = false then [⟨0x70000000, c.data⟩] else []) ∧
    (ds.filter fun d => decode d.word == .command .enEdge).length = (if c.enableBefore = c.enableAfter then 0 else 1) ∧
    (∀ d ∈ ds, decode d.word = .command .clkEdge ∨ decode d.word = .command .enEdge)

/-- 60_exceptions.md R227: both orders of simultaneous edges are admitted; a clock edge before the enable edge belongs
to the ending frame, which it spoils if the frame was full, and one after it is the first bit of the next frame. -/
def Obligations.SimultaneousEdgesInEitherOrder : Prop :=
  ∀ (s : State) (data : Bool), Safe s → s.cfg = true →
    let clock := clockDelivery data
    let enable := enableDelivery data
    (pinWrapper ⟨true, false, false, true, data⟩ = [[clock, enable], [enable, clock]]) ∧
    (pinWrapper ⟨true, false, true, false, data⟩ = [[clock, enable], [enable, clock]]) ∧
    (∃ rs t, runReadings 2 { s with pending := [clock, enable] } = some (rs, t) ∧ t.cursor = 0 ∧ t.ovf = false ∧
      (s.cursor = s.exp → rs = []) ∧
      (s.cursor.toNat + 1 = s.exp.toNat →
        rs = (decodeFrame s.build fun p => if p = s.cursor.toNat then data else s.bitRead p).toList) ∧
      (s.cursor.toNat + 1 < s.exp.toNat → rs = [])) ∧
    (∃ rs t, runReadings 2 { s with pending := [enable, clock] } = some (rs, t) ∧ t.cursor = 1 ∧ t.ovf = false ∧
      t.bitRead 0 = data ∧
      (s.ovf = false → s.cursor = s.exp → rs = (decodeFrame s.build s.bitRead).toList) ∧
      (s.ovf = true ∨ s.cursor ≠ s.exp → rs = []))

/-! ### Invariants of every step -/

/-- 10_state.md R28: the four invariants of the accumulator are kept by every step. -/
def Obligations.StepKeepsAccumulatorInvariants : Prop :=
  ∀ s t : State, AccumulatorInvariants s → step s = .next t → AccumulatorInvariants t

/-- Every invariant of the block together is kept by every step: R28, the legal lengths of R24, the zero positions past
the window of R27, and the canonical form of the storage inside its preallocated bytes. -/
def Obligations.StepKeepsSafe : Prop :=
  ∀ s t : State, Safe s → step s = .next t → Safe t

/-- Every invariant holds at power-on, whatever the parameters. For the storage this rests on log entry 3. -/
def Obligations.PowerOnIsSafe : Prop :=
  Safe State.reset ∧ ∀ b : Build, Safe (State.powerOn b)

/-- 70_reset_and_hazards.md R250, but for the storage, of which it says nothing. -/
def Obligations.PowerOnState : Prop :=
  (∀ b : Build, let s := State.powerOn b
    s.cfg = false ∧ s.exp = 0 ∧ s.cursor = 0 ∧ s.ovf = false ∧ s.build = b) ∧
  State.reset.cfg = false ∧ State.reset.exp = 0 ∧ State.reset.cursor = 0 ∧ State.reset.ovf = false

/-- Who may write what (10_state.md R23, R24, R30): no step clears `S.CFG` or changes the parameters, only an accepted
CONFIGURE sets `S.CFG` and writes `S.EXP`, and a read, a NOP or a refused command writes no field. -/
def Obligations.OnlyConfigureWritesCfgAndExp : Prop :=
  ∀ s t : State, step s = .next t →
    (s.cfg = true → t.cfg = true ∧ t.exp = s.exp) ∧ t.build = s.build ∧
    (s.cfg = false → t.cfg = true →
      ∃ d rest e, s.pending = d :: rest ∧ decode d.word = .command (.configure e) ∧ t.exp = e ∧
        1 ≤ e.toNat ∧ e.toNat ≤ s.build.maxFrameBits ∧ frameFit s.build e = true) ∧
    (s.cfg = false → t.cfg = false → SameBlock s t) ∧
    (∀ d rest i, s.pending = d :: rest → decode d.word = .command i →
      (i = .nop ∨ i = .size ∨ (∃ p, i = .bitAt p) ∨ ∃ p, i = .byteAt p) → SameBlock s t) ∧
    (∀ r, t.response = some r → r.status ≠ .ok → SameBlock s t)

/-- No command shows what the storage held at power-on (10_state.md R27): two unconfigured blocks that differ in the
storage alone give the same readings and the same last response in any number of steps. -/
def Obligations.PowerOnStoreIsNeverObserved : Prop :=
  ∀ (n : Nat) (s : State) (m₁ m₂ : Memory), s.cfg = false →
    StoreWellFormed { s with store := m₁ } → StoreWellFormed { s with store := m₂ } →
    ∃ rs t₁ t₂, runReadings n { s with store := m₁ } = some (rs, t₁) ∧
      runReadings n { s with store := m₂ } = some (rs, t₂) ∧ t₁.response = t₂.response ∧
      t₁.cfg = t₂.cfg ∧ (t₁.cfg = true → t₁ = t₂)

/-- In a good state RESET leaves no byte listed: the block is as a fresh configuration made it (40_accumulator.md
R110, 70_reset_and_hazards.md R251). -/
def Obligations.ResetIsAsFreshlyConfigured : Prop :=
  ∀ s : State, Safe s → s.cfg = true →
    ∃ t u, exec .reset s = .next t ∧
      exec (.configure s.exp) { s with cfg := false } = .next u ∧ t = u ∧ t.store = []

/-! ### Storage -/

/-- 20_memory.md R41: which bit of which storage byte holds a position, and that a byte read at a multiple of 8 is
the storage byte. -/
def Obligations.AlignedByteReadIsTheStorageByte : Prop :=
  ∀ s : State,
    (∀ p, s.bitRead p = (s.store.readByte (p / 8)).getLsbD (7 - p % 8)) ∧
    (∀ k, memRead8 s.bitRead (8 * k) = s.store.readByte k)

/-- 20_memory.md R43: the byte read at `p` is the sum of its bits by weight, and the bit at `p + k` is its bit
`7 - k`. -/
def Obligations.ByteReadIsMostSignificantFirst : Prop :=
  ∀ (bit : Nat → Bool) (p : Nat),
    (memRead8 bit p).toNat = ((List.range 8).map fun k => (bit (p + k)).toNat * 2 ^ (7 - k)).sum ∧
    ∀ k, k < 8 → (memRead8 bit p).getLsbD (7 - k) = bit (p + k)

/-! ### The field extractor -/

/-- 42_mode_exponent.md R154: the truth table of the mode. -/
def Obligations.ModeTruthTable : Prop :=
  ∀ (b : Build) (bit : Nat → Bool),
    (bit b.offV = true → bit b.offAC = false → resolveMode b bit = some .voltageDC) ∧
    (bit b.offV = true → bit b.offAC = true → resolveMode b bit = some .voltageAC) ∧
    (bit b.offV = false → bit b.offI = true → bit b.offAC = false → resolveMode b bit = some .currentDC) ∧
    (bit b.offV = false → bit b.offI = true → bit b.offAC = true → resolveMode b bit = some .currentAC) ∧
    (bit b.offV = false → bit b.offI = false → bit b.offR = true → resolveMode b bit = some .resistance) ∧
    (bit b.offV = false → bit b.offI = false → bit b.offR = false → bit b.offT = true →
      resolveMode b bit = some .temperature) ∧
    (bit b.offV = false → bit b.offI = false → bit b.offR = false → bit b.offT = false → resolveMode b bit = none)

/-- 42_mode_exponent.md R153: the scale exponent. -/
def Obligations.ScaleExponentTakesTheFirstFlag : Prop :=
  ∀ (b : Build) (bit : Nat → Bool),
    (bit b.offX6 = true → scaleExponent b bit = 6) ∧
    (bit b.offX6 = false → bit b.offX3 = true → scaleExponent b bit = 3) ∧
    (bit b.offX6 = false → bit b.offX3 = false → bit b.offXM3 = true → scaleExponent b bit = -3) ∧
    (bit b.offX6 = false → bit b.offX3 = false → bit b.offXM3 = false → bit b.offXM6 = true →
      scaleExponent b bit = -6) ∧
    (bit b.offX6 = false → bit b.offX3 = false → bit b.offXM3 = false → bit b.offXM6 = false →
      scaleExponent b bit = 0)

/-- 42_mode_exponent.md R152: no emitted reading carries `Unknown`, nor code 7. -/
def Obligations.UnknownModeIsNeverEmitted : Prop :=
  ∀ (s t : State) (r : Reading), step s = .next t → r ∈ t.dispatch →
    r.mode ≠ .unknown ∧ (r.record.extractLsb 62 60).toNat ≤ 5

/-! ### The segment decoder -/

/-- 43_segment_digits.md R170: the lookup finds the symbol of every pair of the table, and nothing for a code in no
pair. -/
def Obligations.SegLookupFindsEveryEntry : Prop :=
  ∀ t : SegTable,
    (∀ e ∈ t.entries, segLookup t e.1 = some e.2) ∧
    (∀ code, (∀ e ∈ t.entries, e.1 ≠ code) → segLookup t code = none)

/-- 43_segment_digits.md R171: each symbol has exactly two codes, which differ in one bit. -/
def Obligations.EverySymbolHasTwoForms : Prop :=
  ∀ (t : SegTable) (sym : Symbol), ∃ p q : Byte, ∃ k, k < 8 ∧ q = p ^^^ (1#8 <<< k) ∧
    ∀ code, segLookup t code = some sym ↔ code = p ∨ code = q

/-- 43_segment_digits.md R174 to R177: the primary scan, with and without the overload stop. -/
def Obligations.PrimaryScan : Prop :=
  ∀ (b : Build) (bit : Nat → Bool),
    let sym := fun i : Fin 4 => segLookup b.segTable (memRead8 bit b.offDig[i])
    let dot := fun i : Fin 4 => bit b.offDot[i]
    let a := scanPrimary b bit
    (sym 1 ≠ some .ol →
      a.ovl = false ∧
      a.n = digitValue (sym 0) + digitValue (sym 1) * 10 + digitValue (sym 2) * 100 + digitValue (sym 3) * 1000 ∧
      a.shift = (if dot 0 then -1 else 0) + (if dot 1 then -2 else 0) + (if dot 2 then -3 else 0) ∧
      a.neg = dot 3) ∧
    (sym 1 = some .ol →
      a.ovl = true ∧ a.n = digitValue (sym 0) ∧ a.shift = (if dot 0 then -1 else 0) ∧ a.neg = false)

/-- 43_segment_digits.md R172: what a symbol contributes. -/
def Obligations.DigitValueIsTolerant : Prop :=
  (∀ d : Fin 10, digitValue (some (.digit d)) = d.val) ∧ digitValue none = 0 ∧ digitValue (some .ol) = 0

/-! ### Value composition -/

/-- The primary value of a reading that is not overloaded (44_value_composition.md R190). Of an overloaded one nothing
is claimed (93_implementation_defined.md U5). -/
def Obligations.PrimaryIsScaledAndSigned : Prop :=
  ∀ (b : Build) (bit : Nat → Bool) (mode : Mode), (scanPrimary b bit).ovl = false →
    let r := readingOf b bit mode
    r.overloaded = false ∧ r.pmant = (scanPrimary b bit).n ∧
      r.pexp = scaleExponent b bit + (scanPrimary b bit).shift ∧ r.pneg = (scanPrimary b bit).neg ∧
      r.primary = primary64 r.pmant r.pexp r.pneg

/-- 44_value_composition.md R193: the secondary field in an AC mode, and zero in any other. -/
def Obligations.SecondaryFieldInACModesOnly : Prop :=
  ∀ (b : Build) (bit : Nat → Bool) (mode : Mode),
    let sym := fun i : Fin 4 => segLookup b.segTable (memRead8 bit b.offSDig[i])
    let r := decodeSecondary b bit mode
    ((mode = .voltageAC ∨ mode = .currentAC) →
      r.valid = true ∧
      r.mant = digitValue (sym 0) + digitValue (sym 1) * 10 + digitValue (sym 2) * 100 + digitValue (sym 3) * 1000 ∧
      r.exp = (if bit b.offSX3 then 3 else 0) + (if bit b.offSDot[0] then -1 else 0) +
        (if bit b.offSDot[1] then -2 else 0) + (if bit b.offSDot[2] then -3 else 0) ∧
      r.value = primary64 r.mant r.exp false) ∧
    (mode ≠ .voltageAC → mode ≠ .currentAC →
      r.valid = false ∧ r.mant = 0 ∧ r.exp = 0 ∧ r.value = 0x0000000000000000)

/-- A reading depends on no frame bit outside the fields of the frame map (30_encoding.md R70, 41_frame_control.md
R134), and in a mode that is not AC on none of the secondary field (44_value_composition.md R194). -/
def Obligations.ReadingDependsOnItsFieldsOnly : Prop :=
  ∀ (b : Build) (f g : Nat → Bool),
    ((∀ p ∈ fieldPositions b, f p = g p) → decodeFrame b f = decodeFrame b g) ∧
    ((∀ p ∈ [b.offV, b.offI, b.offR, b.offT, b.offAC, b.offX6, b.offX3, b.offXM3, b.offXM6] ++ b.offDot.toList,
        f p = g p) →
      (∀ o ∈ b.offDig.toList, ∀ k, k < 8 → f (o + k) = g (o + k)) →
      (∀ mode, resolveMode b f = some mode → mode ≠ .voltageAC ∧ mode ≠ .currentAC) →
      decodeFrame b f = decodeFrame b g)

/-- 30_encoding.md R74 and R73: the fields of the reading record. -/
def Obligations.RecordIsAsLaidOut : Prop :=
  ∀ r : Reading,
    r.record.extractLsb 191 128 = r.primary ∧ r.record.extractLsb 127 64 = r.secondary ∧
    r.record.getLsbD 63 = r.overloaded ∧
    (r.record.extractLsb 62 60).toNat =
      (match r.mode with
       | .voltageDC => 0 | .voltageAC => 1 | .currentDC => 2 | .currentAC => 3 | .resistance => 4
       | .temperature => 5 | .unknown => 6) ∧
    r.record.getLsbD 59 = r.pneg ∧ r.record.extractLsb 58 54 = BitVec.ofInt 5 r.pexp ∧
    r.record.extractLsb 53 40 = BitVec.ofNat 14 r.pmant ∧ r.record.getLsbD 39 = r.svalid ∧
    r.record.extractLsb 38 34 = BitVec.ofInt 5 r.sexp ∧ r.record.extractLsb 33 20 = BitVec.ofNat 14 r.smant ∧
    r.record.extractLsb 19 0 = 0#20

/-- 30_encoding.md R75: every emitted reading fits its record, so the record carries its digit sums and exponents
exactly; and these raw fields determine its two values (R74). -/
def Obligations.EmittedReadingsFitTheRecord : Prop :=
  ∀ (s t : State) (r : Reading), step s = .next t → r ∈ t.dispatch →
    r.pmant ≤ 9999 ∧ r.smant ≤ 9999 ∧ -12 ≤ r.pexp ∧ r.pexp ≤ 6 ∧ -6 ≤ r.sexp ∧ r.sexp ≤ 3 ∧
    (r.record.extractLsb 53 40).toNat = r.pmant ∧ (r.record.extractLsb 58 54).toInt = r.pexp ∧
    (r.record.extractLsb 33 20).toNat = r.smant ∧ (r.record.extractLsb 38 34).toInt = r.sexp ∧
    r.primary = primary64 r.pmant r.pexp r.pneg ∧ r.secondary = primary64 r.smant r.sexp false

/-! ### Conversion to binary64 -/

/-- 44_value_composition.md R196 with 00_scope.md R14: the conversion is the binary64 value nearest the exact decimal,
a tie going to the even significand, and the sign is applied after rounding. -/
def Obligations.ConversionRoundsToNearestEven : Prop :=
  ∀ (m : Nat) (e : Int), m ≤ 9999 → -12 ≤ e → e ≤ 6 →
    (let x : ℚ := (m : ℚ) * (10 : ℚ) ^ e
     let v := primary64 m e false
     isFinite64 v = true ∧ v.getLsbD 63 = false ∧
     ∀ y : F64, isFinite64 y = true →
       |value64 v - x| ≤ |value64 y - x| ∧
       (|value64 v - x| = |value64 y - x| → value64 y ≠ value64 v → v.getLsbD 0 = false) ∧
       |value64 (primary64 m e true) + x| ≤ |value64 y + x|) ∧
    primary64 m e true = primary64 m e false ^^^ 0x8000000000000000#64 ∧
    (m = 0 → primary64 m e true = 0x8000000000000000#64)

/-- The conversion of a scaled-up integer is exact, and every result is 0 or a normal number no larger than `10^10`
(44_value_composition.md R197; log entry 10 for its lower bound). -/
def Obligations.ConversionIsExactUpwardsAndNormal : Prop :=
  ∀ (m : Nat) (e : Int), m ≤ 9999 → -12 ≤ e → e ≤ 6 →
    (0 ≤ e → value64 (primary64 m e false) = (m : ℚ) * (10 : ℚ) ^ e) ∧
    (m = 0 → primary64 m e false = 0x0000000000000000#64) ∧
    (m ≠ 0 → 1 ≤ expField (primary64 m e false) ∧ expField (primary64 m e false) ≤ 2046 ∧
      (2 : ℚ) ^ (-40 : Int) ≤ value64 (primary64 m e false) ∧ value64 (primary64 m e false) ≤ 10 ^ 10)
end

