-- ==== Sys2Proof/Laws/Decode.lean ====
section
/-! SUPPORT. The fields of an encoded word, and the field accessors by the spec's bit ranges. -/

namespace Sys2Proof

@[simp] theorem opField_encode (i : Instr) : opField (encode i) = opcode i := by
  simp only [opField, encode]
  rw [BitVec.extractLsb'_append_eq_of_le (by omega)]
  simp

@[simp] theorem rsvField_encode (i : Instr) : rsvField (encode i) = 0 := by
  simp only [rsvField, encode]
  rw [BitVec.extractLsb'_append_eq_of_add_le (by omega), BitVec.extractLsb'_append_eq_of_le (by omega)]
  simp

@[simp] theorem opndField_encode (i : Instr) : opndField (encode i) = operand i := by
  simp only [opndField, encode]
  rw [BitVec.extractLsb'_append_eq_of_add_le (by omega), BitVec.extractLsb'_append_eq_of_add_le (by omega)]
  simp

/-- A word is its three fields (30_encoding.md R61). -/
theorem word_eq_fields (w : Word) : w = opField w ++ (rsvField w ++ opndField w) := by
  apply BitVec.eq_of_getLsbD_eq
  intro k hk
  simp only [opField, rsvField, opndField]
  rw [BitVec.getLsbD_append, BitVec.getLsbD_append]
  simp only [BitVec.getLsbD_extractLsb']
  by_cases h₁ : k < 16
  · have : k < 12 + 16 := by omega
    simp [h₁, this]
  · by_cases h₂ : k < 28
    · have : 16 + (k - 16) = k := by omega
      have h3 : k - 16 < 12 := by omega
      simp [h₁, h₂, this, h3]
    · have : 28 + (k - 28) = k := by omega
      have h3 : k - 28 < 4 := by omega
      simp [h₂, this, h3]

/-- The well-encoding check of 30_encoding.md R63, on the three fields of the word. -/
theorem wellEncoded_eq_fields (w : Word) :
    wellEncoded w =
      (decide (opField w ≤ 0x8#4) && rsvField w == 0#12 && opndField w &&& mustBeZero (opField w) == 0#16) := rfl

theorem wellEncoded_encode (i : Instr) :
    wellEncoded (encode i) =
      (decide (opcode i ≤ 0x8#4) && operand i &&& mustBeZero (opcode i) == 0#16) := by
  rw [wellEncoded_eq_fields, opField_encode, rsvField_encode, opndField_encode]
  simp

end Sys2Proof
end

