-- ==== Sys2Proof/Laws/Derived.lean ====
section
/-! SUPPORT. The arithmetic of the derived quantities (00_scope.md R8) and of the cursor. -/

namespace Sys2Proof.Machine

/-- The extra byte of the window: a byte read that starts inside the frame stays in it (20_memory.md R45). -/
theorem exp_add_seven_le_storeBits (e : Half) : e.toNat + 7 ≤ storeBits e := by
  simp only [storeBits, nbytes]
  omega

/-- The window of a legal length lies in the preallocated storage (10_state.md R27). -/
theorem storeBits_le_physBits (b : Build) (e : Half) (h : e.toNat ≤ b.maxFrameBits) : storeBits e ≤ physBits b := by
  simp only [storeBits, nbytes, physBits, physBytes]
  omega

theorem eq_zero_of_toNat (e : Half) : e = 0 ↔ e.toNat = 0 :=
  ⟨fun h => by simp [h], fun h => BitVec.eq_of_toNat_eq h⟩

/-- What CONFIGURE asks of a length (40_accumulator.md R102). -/
theorem legalExp_iff (b : Build) (e : Half) :
    legalExp b e = true ↔ 1 ≤ e.toNat ∧ e.toNat ≤ b.maxFrameBits ∧ frameFit b e = true := by
  have h0 : e ≠ 0 ↔ 1 ≤ e.toNat := by
    rw [Ne, eq_zero_of_toNat]
    omega
  simp [legalExp, ← h0, and_assoc]

/-- Below capacity the cursor advances by one and does not wrap (40_accumulator.md R104). -/
theorem toNat_cursor_add_one (s : State) (hle : s.cursor.toNat ≤ s.exp.toNat) (hne : s.cursor ≠ s.exp) :
    (s.cursor + 1).toNat = s.cursor.toNat + 1 := by
  have h1 : s.cursor.toNat ≠ s.exp.toNat := fun h => hne (BitVec.eq_of_toNat_eq h)
  have h2 := s.exp.isLt
  rw [BitVec.toNat_add]
  simp
  omega

end Sys2Proof.Machine
end

