-- ==== Sys2Proof/Laws/Memory.lean ====
section
/-! SUPPORT. The laws of the storage: read after write and after zeroing, bit by bit and byte by byte, and that
every operation keeps the canonical form. -/

namespace Sys2Proof.Machine

namespace Memory

/-! ### Bytes -/

@[simp] theorem readByte_nil (k : Nat) : readByte [] k = unlisted := rfl

@[simp] theorem readByte_cons (c : Host.Cell) (m : Memory) (k : Nat) :
    readByte (c :: m) k = if c.1 = k then c.2 else readByte m k := rfl

/-- Filtering by address keeps what it keeps and zeroes the rest. -/
theorem readByte_filter (m : Memory) (keep : Nat → Bool) (k : Nat) :
    readByte (m.filter fun c => keep c.1) k = if keep k then readByte m k else unlisted := by
  induction m with
  | nil => simp
  | cons c m ih =>
    by_cases hc : c.1 = k
    · subst hc
      cases hk : keep c.1 <;> simp_all
    · cases hk : keep c.1 <;> simp_all

theorem readByte_erase (m : Memory) (k j : Nat) :
    readByte (m.erase k) j = if j = k then unlisted else readByte m j := by
  have h := readByte_filter m (fun a => a != k) j
  by_cases hj : j = k <;> simp_all [erase]

theorem readByte_clearBelow (m : Memory) (n k : Nat) :
    readByte (m.clearBelow n) k = if k < n then unlisted else readByte m k := by
  have h := readByte_filter m (fun a => decide (n ≤ a)) k
  by_cases hk : k < n
  · simp_all [clearBelow, Nat.not_le.mpr hk]
  · simp_all [clearBelow, Nat.not_lt.mp hk]

theorem readByte_insert (m : Memory) (k j : Nat) (v : Byte) (h : ∀ c ∈ m, c.1 ≠ k) :
    readByte (m.insert k v) j = if j = k then v else readByte m j := by
  induction m with
  | nil =>
    rcases eq_or_ne j k with rfl | hj
    · simp [insert]
    · simp [insert, hj, hj.symm]
  | cons c m ih =>
    have hc : c.1 ≠ k := h c (by simp)
    have ih := ih fun d hd => h d (by simp [hd])
    unfold insert
    split
    · rcases eq_or_ne j k with rfl | hj
      · simp
      · simp [hj, hj.symm]
    · by_cases hj : c.1 = j
      · have : j ≠ k := hj ▸ hc
        simp [hj, this]
      · simp [hj, ih]

theorem readByte_writeByte (m : Memory) (k j : Nat) (v : Byte) :
    readByte (m.writeByte k v) j = if j = k then v else readByte m j := by
  unfold writeByte
  split
  · simp_all [readByte_erase]
  · rw [readByte_insert _ _ _ _ (by simp [erase]), readByte_erase]
    by_cases hj : j = k <;> simp [hj]

/-! ### Bits -/

theorem bit_writeByte_of_ne (m : Memory) (k p : Nat) (v : Byte) (h : p / 8 ≠ k) :
    bit (m.writeByte k v) p = bit m p := by
  simp [bit, readByte_writeByte, h]

/-- `MemWrite(p, 1, v)` ORs `v` into position `p` and leaves every other position alone. -/
theorem bit_orBit (m : Memory) (p q : Nat) (v : Bool) :
    bit (m.orBit p v) q = if q = p then (bit m p || v) else bit m q := by
  by_cases hb : q / 8 = p / 8
  · have hidx : 7 - q % 8 < 8 := by omega
    by_cases hq : q = p
    · subst hq
      simp [bit, orBit, readByte_writeByte, hidx]
    · have hne : ¬ 7 - q % 8 = 7 - p % 8 := by omega
      simp only [bit, orBit, readByte_writeByte, hb, if_true, hq, if_false, BitVec.getLsbD_or,
        BitVec.getLsbD_shiftLeft, BitVec.getLsbD_setWidth, hidx, decide_true, Bool.true_and]
      by_cases hlt : 7 - q % 8 < 7 - p % 8
      · simp [hlt]
      · have hpos : 7 - q % 8 - (7 - p % 8) ≠ 0 := by omega
        simp [BitVec.getLsbD_ofBool, hlt, hpos]
  · have hq : q ≠ p := fun h => hb (by rw [h])
    rw [orBit, bit_writeByte_of_ne _ _ _ _ hb, if_neg hq]

/-- Zeroing the bytes below `n` zeroes the positions below `8 * n`. -/
theorem bit_clearBelow (m : Memory) (n p : Nat) :
    bit (m.clearBelow n) p = if p < 8 * n then false else bit m p := by
  have h : p / 8 < n ↔ p < 8 * n := by omega
  by_cases hp : p < 8 * n <;> simp [bit, readByte_clearBelow, h, hp, unlisted]

@[simp] theorem bit_nil (p : Nat) : bit [] p = false := by simp [bit, unlisted]

/-! ### The canonical form -/

theorem wf_nil : wf [] := ⟨List.Pairwise.nil, by simp⟩

theorem wf_filter (m : Memory) (f : Host.Cell → Bool) (h : wf m) : wf (m.filter f) :=
  ⟨h.1.filter _, fun c hc => h.2 c (List.mem_of_mem_filter hc)⟩

theorem wf_erase (m : Memory) (k : Nat) (h : wf m) : wf (m.erase k) := wf_filter m _ h

theorem wf_clearBelow (m : Memory) (n : Nat) (h : wf m) : wf (m.clearBelow n) := wf_filter m _ h

theorem mem_insert (m : Memory) (k : Nat) (v : Byte) (c : Host.Cell) :
    c ∈ m.insert k v ↔ c = (k, v) ∨ c ∈ m := by
  induction m with
  | nil => simp [insert]
  | cons d m ih =>
    unfold insert
    split
    · simp
    · rw [List.mem_cons, ih, List.mem_cons]
      tauto

theorem wf_insert (m : Memory) (k : Nat) (v : Byte) (hv : v ≠ unlisted) (hk : ∀ c ∈ m, c.1 ≠ k)
    (h : wf m) : wf (m.insert k v) := by
  refine ⟨?_, fun c hc => ?_⟩
  · have hsorted := h.1
    clear h
    induction m with
    | nil => simp [insert]
    | cons d m ih =>
      rw [List.pairwise_cons] at hsorted
      have hd : d.1 ≠ k := hk d (by simp)
      unfold insert
      split
      · rename_i hlt
        refine List.pairwise_cons.mpr ⟨fun c hc => ?_, List.pairwise_cons.mpr hsorted⟩
        rcases List.mem_cons.mp hc with rfl | hc
        · exact hlt
        · exact lt_trans hlt (hsorted.1 c hc)
      · rename_i hlt
        refine List.pairwise_cons.mpr ⟨fun c hc => ?_, ih (fun c hc => hk c (by simp [hc])) hsorted.2⟩
        rcases (mem_insert m k v c).mp hc with rfl | hc
        · exact lt_of_le_of_ne (Nat.not_lt.mp hlt) hd
        · exact hsorted.1 c hc
  · rcases (mem_insert m k v c).mp hc with rfl | hc
    · exact hv
    · exact h.2 c hc

theorem wf_writeByte (m : Memory) (k : Nat) (v : Byte) (h : wf m) : wf (m.writeByte k v) := by
  unfold writeByte
  split
  · exact wf_erase m k h
  · rename_i hv
    exact wf_insert _ k v hv (by simp [erase]) (wf_erase m k h)

theorem wf_orBit (m : Memory) (p : Nat) (v : Bool) (h : wf m) : wf (m.orBit p v) := wf_writeByte m _ _ h

/-- A write lists no byte but its own that was not listed before. -/
theorem address_of_mem_writeByte (m : Memory) (k : Nat) (v : Byte) (c : Host.Cell) (h : c ∈ m.writeByte k v) :
    c.1 = k ∨ c ∈ m := by
  unfold writeByte at h
  split at h
  · exact .inr (List.mem_of_mem_filter h)
  · rcases (mem_insert _ k v c).mp h with rfl | h
    · exact .inl rfl
    · exact .inr (List.mem_of_mem_filter h)

theorem mem_of_mem_clearBelow (m : Memory) (n : Nat) (c : Host.Cell) (h : c ∈ m.clearBelow n) :
    n ≤ c.1 ∧ c ∈ m := by
  simpa [clearBelow, and_comm] using h

theorem readByte_of_lt (m : Memory) (k : Nat) (h : ∀ c ∈ m, k < c.1) : readByte m k = unlisted := by
  induction m with
  | nil => rfl
  | cons c m ih =>
    have hc : c.1 ≠ k := Nat.ne_of_gt (h c (by simp))
    rw [readByte_cons, if_neg hc, ih fun d hd => h d (by simp [hd])]

theorem readByte_of_bound (m : Memory) (n k : Nat) (h : ∀ c ∈ m, c.1 < n) (hk : n ≤ k) : readByte m k = unlisted := by
  induction m with
  | nil => rfl
  | cons c m ih =>
    have hc : c.1 ≠ k := Nat.ne_of_lt (Nat.lt_of_lt_of_le (h c (by simp)) hk)
    rw [readByte_cons, if_neg hc]
    exact ih fun d hd => h d (by simp [hd])

/-- Past the listed bytes every position reads 0. -/
theorem bit_of_bound (m : Memory) (n p : Nat) (h : ∀ c ∈ m, c.1 < n) (hp : 8 * n ≤ p) : bit m p = false := by
  simp [bit, readByte_of_bound m n (p / 8) h (by omega), unlisted]

/-- The form is canonical: two memories in it that read alike are equal. -/
theorem eq_of_readByte_eq (m m' : Memory) (h : wf m) (h' : wf m')
    (hread : ∀ k, readByte m k = readByte m' k) : m = m' := by
  induction m generalizing m' with
  | nil =>
    cases m' with
    | nil => rfl
    | cons d m' =>
      have := hread d.1
      simp only [readByte_nil, readByte_cons, if_true] at this
      exact absurd this.symm (h'.2 d (by simp))
  | cons c m ih =>
    have hc := List.pairwise_cons.mp h.1
    cases m' with
    | nil =>
      have := hread c.1
      simp only [readByte_nil, readByte_cons, if_true] at this
      exact absurd this (h.2 c (by simp))
    | cons d m' =>
      have hd := List.pairwise_cons.mp h'.1
      have hcd : c.1 = d.1 := by
        rcases Nat.lt_trichotomy c.1 d.1 with hlt | heq | hlt
        · have hr := hread c.1
          rw [readByte_cons, if_pos rfl, readByte_of_lt (d :: m') c.1 fun e he => ?_] at hr
          · exact absurd hr (h.2 c (by simp))
          · rcases List.mem_cons.mp he with rfl | he
            · exact hlt
            · exact lt_trans hlt (hd.1 e he)
        · exact heq
        · have hr := hread d.1
          rw [readByte_cons d, if_pos rfl, readByte_of_lt (c :: m) d.1 fun e he => ?_] at hr
          · exact absurd hr.symm (h'.2 d (by simp))
          · rcases List.mem_cons.mp he with rfl | he
            · exact hlt
            · exact lt_trans hlt (hc.1 e he)
      have hval : c.2 = d.2 := by
        have hr := hread c.1
        rwa [readByte_cons, if_pos rfl, readByte_cons, if_pos hcd.symm] at hr
      have hrest : m = m' := by
        refine ih m' ⟨hc.2, fun e he => h.2 e (by simp [he])⟩ ⟨hd.2, fun e he => h'.2 e (by simp [he])⟩ fun k => ?_
        by_cases hk : c.1 = k
        · subst hk
          rw [readByte_of_lt m c.1 hc.1, readByte_of_lt m' c.1 fun e he => hcd ▸ hd.1 e he]
        · have hr := hread k
          rwa [readByte_cons, if_neg hk, readByte_cons, if_neg (hcd ▸ hk)] at hr
      rw [hrest, Prod.ext hcd hval]

theorem readByte_of_mem (m : Memory) (c : Host.Cell) (h : wf m) (hc : c ∈ m) : readByte m c.1 = c.2 := by
  induction m with
  | nil => simp at hc
  | cons d m ih =>
    have hd := List.pairwise_cons.mp h.1
    rcases List.mem_cons.mp hc with rfl | hc
    · rw [readByte_cons, if_pos rfl]
    · rw [readByte_cons, if_neg (Nat.ne_of_lt (hd.1 c hc))]
      exact ih ⟨hd.2, fun e he => h.2 e (by simp [he])⟩ hc

/-- Zeroing the bytes below `k` empties a memory all of whose bits from there on are 0. -/
theorem clearBelow_eq_nil (m : Memory) (n k : Nat) (hwf : wf m) (hbound : ∀ c ∈ m, c.1 < n)
    (hzero : ∀ p, 8 * k ≤ p → p < 8 * n → m.bit p = false) : m.clearBelow k = [] := by
  rw [List.eq_nil_iff_forall_not_mem]
  intro c hc
  obtain ⟨hk, hmem⟩ := mem_of_mem_clearBelow m k c hc
  have hn := hbound c hmem
  refine hwf.2 c hmem (BitVec.eq_of_getLsbD_eq fun j hj => ?_)
  have hbit := hzero (8 * c.1 + (7 - j)) (by omega) (by omega)
  rw [bit, show (8 * c.1 + (7 - j)) / 8 = c.1 by omega, show 7 - (8 * c.1 + (7 - j)) % 8 = j by omega,
    readByte_of_mem m c hwf hmem] at hbit
  simp [hbit, unlisted]

end Memory

/-! ### The state's bits -/

theorem bitRead_def (s : State) (p : Nat) : s.bitRead p = s.store.bit p := rfl

/-- The positions after one bit is appended (40_accumulator.md R104). -/
theorem append_bitRead (v : Bool) (s : State) (p : Nat) :
    (append v s).bitRead p = if p = s.cursor.toNat then (s.bitRead p || v) else s.bitRead p := by
  simp only [State.bitRead, append, Memory.bit_orBit]
  split <;> simp_all

/-- The positions after `AccReset()` (40_accumulator.md R110). -/
theorem accReset_bitRead (s : State) (p : Nat) :
    (accReset s).bitRead p = if p < storeBits s.exp then false else s.bitRead p :=
  Memory.bit_clearBelow s.store (nbytes s.exp) p

/-- The positions after an accepted CONFIGURE (40_accumulator.md R102). -/
theorem create_bitRead (e : Half) (s : State) (p : Nat) :
    (create e s).bitRead p = if p < physBits s.build then false else s.bitRead p :=
  Memory.bit_clearBelow s.store (physBytes s.build) p

@[simp] theorem respond_bitRead (st : Status) (d : Half) (s : State) : (respond st d s).bitRead = s.bitRead := rfl
@[simp] theorem emit_bitRead (r : Reading) (s : State) : (emit r s).bitRead = s.bitRead := rfl
@[simp] theorem setOverflow_bitRead (s : State) : (setOverflow s).bitRead = s.bitRead := rfl
@[simp] theorem deliver_bitRead (d : Delivery) (r : List Delivery) (s : State) :
    (deliver d r s).bitRead = s.bitRead := rfl
@[simp] theorem idle_bitRead (s : State) : (idle s).bitRead = s.bitRead := rfl

end Sys2Proof.Machine
end

