-- ==== Sys2Proof/Laws/PerInstr.lean ====
section
/-! SUPPORT. What holds of every command as syntax, one lemma per command: its word is well-encoded
(30_encoding.md R63). -/

/-- The word of a command is well-encoded, whatever its operand (30_encoding.md R62, R63). -/
def Sys2Proof.Laws.WellEncodedWords.Statement (i : Sys2Proof.Instr) : Prop :=
  Sys2Proof.wellEncoded (Sys2Proof.encode i) = true

namespace Sys2Proof.Laws.WellEncodedWords

theorem nop : Statement .nop := by unfold Statement; decide

theorem configure (e : Half) : Statement (.configure e) := by
  unfold Statement
  rw [wellEncoded_encode]
  simp [opcode, operand, mustBeZero]

theorem pushBit (v : Bool) : Statement (.pushBit v) := by
  unfold Statement
  cases v <;> decide

theorem bitAt (p : Half) : Statement (.bitAt p) := by
  unfold Statement
  rw [wellEncoded_encode]
  simp [opcode, operand, mustBeZero]

theorem byteAt (p : Half) : Statement (.byteAt p) := by
  unfold Statement
  rw [wellEncoded_encode]
  simp [opcode, operand, mustBeZero]

theorem size : Statement .size := by unfold Statement; decide

theorem reset : Statement .reset := by unfold Statement; decide

theorem clkEdge : Statement .clkEdge := by unfold Statement; decide

theorem enEdge : Statement .enEdge := by unfold Statement; decide

end Sys2Proof.Laws.WellEncodedWords
end

