-- ==== Sys2Proof/Laws/State.lean ====
section
/-! SUPPORT. One lemma per field per update of State, true by rfl: what each shared operation writes and what it
leaves as it was. -/

namespace Sys2Proof.Machine

/-! ### `respond` -/

@[simp] theorem respond_cfg (st : Status) (d : Half) (s : State) : (respond st d s).cfg = s.cfg := rfl
@[simp] theorem respond_exp (st : Status) (d : Half) (s : State) : (respond st d s).exp = s.exp := rfl
@[simp] theorem respond_cursor (st : Status) (d : Half) (s : State) : (respond st d s).cursor = s.cursor := rfl
@[simp] theorem respond_ovf (st : Status) (d : Half) (s : State) : (respond st d s).ovf = s.ovf := rfl
@[simp] theorem respond_store (st : Status) (d : Half) (s : State) : (respond st d s).store = s.store := rfl
@[simp] theorem respond_build (st : Status) (d : Half) (s : State) : (respond st d s).build = s.build := rfl
@[simp] theorem respond_pending (st : Status) (d : Half) (s : State) : (respond st d s).pending = s.pending := rfl
@[simp] theorem respond_sampledData (st : Status) (d : Half) (s : State) :
    (respond st d s).sampledData = s.sampledData := rfl
@[simp] theorem respond_response (st : Status) (d : Half) (s : State) :
    (respond st d s).response = some ⟨st, s.ovf, d⟩ := rfl
@[simp] theorem respond_dispatch (st : Status) (d : Half) (s : State) : (respond st d s).dispatch = s.dispatch := rfl

/-! ### `emit` -/

@[simp] theorem emit_cfg (r : Reading) (s : State) : (emit r s).cfg = s.cfg := rfl
@[simp] theorem emit_exp (r : Reading) (s : State) : (emit r s).exp = s.exp := rfl
@[simp] theorem emit_cursor (r : Reading) (s : State) : (emit r s).cursor = s.cursor := rfl
@[simp] theorem emit_ovf (r : Reading) (s : State) : (emit r s).ovf = s.ovf := rfl
@[simp] theorem emit_store (r : Reading) (s : State) : (emit r s).store = s.store := rfl
@[simp] theorem emit_build (r : Reading) (s : State) : (emit r s).build = s.build := rfl
@[simp] theorem emit_pending (r : Reading) (s : State) : (emit r s).pending = s.pending := rfl
@[simp] theorem emit_sampledData (r : Reading) (s : State) : (emit r s).sampledData = s.sampledData := rfl
@[simp] theorem emit_response (r : Reading) (s : State) : (emit r s).response = s.response := rfl
@[simp] theorem emit_dispatch (r : Reading) (s : State) : (emit r s).dispatch = s.dispatch ++ [r] := rfl

/-! ### `accReset` -/

@[simp] theorem accReset_cfg (s : State) : (accReset s).cfg = s.cfg := rfl
@[simp] theorem accReset_exp (s : State) : (accReset s).exp = s.exp := rfl
@[simp] theorem accReset_cursor (s : State) : (accReset s).cursor = 0 := rfl
@[simp] theorem accReset_ovf (s : State) : (accReset s).ovf = false := rfl
@[simp] theorem accReset_store (s : State) : (accReset s).store = s.store.clearBelow (nbytes s.exp) := rfl
@[simp] theorem accReset_build (s : State) : (accReset s).build = s.build := rfl
@[simp] theorem accReset_pending (s : State) : (accReset s).pending = s.pending := rfl
@[simp] theorem accReset_sampledData (s : State) : (accReset s).sampledData = s.sampledData := rfl
@[simp] theorem accReset_response (s : State) : (accReset s).response = s.response := rfl
@[simp] theorem accReset_dispatch (s : State) : (accReset s).dispatch = s.dispatch := rfl

/-! ### `create` -/

@[simp] theorem create_cfg (e : Half) (s : State) : (create e s).cfg = true := rfl
@[simp] theorem create_exp (e : Half) (s : State) : (create e s).exp = e := rfl
@[simp] theorem create_cursor (e : Half) (s : State) : (create e s).cursor = 0 := rfl
@[simp] theorem create_ovf (e : Half) (s : State) : (create e s).ovf = false := rfl
@[simp] theorem create_store (e : Half) (s : State) :
    (create e s).store = s.store.clearBelow (physBytes s.build) := rfl
@[simp] theorem create_build (e : Half) (s : State) : (create e s).build = s.build := rfl
@[simp] theorem create_pending (e : Half) (s : State) : (create e s).pending = s.pending := rfl
@[simp] theorem create_sampledData (e : Half) (s : State) : (create e s).sampledData = s.sampledData := rfl
@[simp] theorem create_response (e : Half) (s : State) : (create e s).response = s.response := rfl
@[simp] theorem create_dispatch (e : Half) (s : State) : (create e s).dispatch = s.dispatch := rfl

/-! ### `append` -/

@[simp] theorem append_cfg (v : Bool) (s : State) : (append v s).cfg = s.cfg := rfl
@[simp] theorem append_exp (v : Bool) (s : State) : (append v s).exp = s.exp := rfl
@[simp] theorem append_cursor (v : Bool) (s : State) : (append v s).cursor = s.cursor + 1 := rfl
@[simp] theorem append_ovf (v : Bool) (s : State) : (append v s).ovf = s.ovf := rfl
@[simp] theorem append_store (v : Bool) (s : State) : (append v s).store = s.store.orBit s.cursor.toNat v := rfl
@[simp] theorem append_build (v : Bool) (s : State) : (append v s).build = s.build := rfl
@[simp] theorem append_pending (v : Bool) (s : State) : (append v s).pending = s.pending := rfl
@[simp] theorem append_sampledData (v : Bool) (s : State) : (append v s).sampledData = s.sampledData := rfl
@[simp] theorem append_response (v : Bool) (s : State) : (append v s).response = s.response := rfl
@[simp] theorem append_dispatch (v : Bool) (s : State) : (append v s).dispatch = s.dispatch := rfl

/-! ### `setOverflow` -/

@[simp] theorem setOverflow_cfg (s : State) : (setOverflow s).cfg = s.cfg := rfl
@[simp] theorem setOverflow_exp (s : State) : (setOverflow s).exp = s.exp := rfl
@[simp] theorem setOverflow_cursor (s : State) : (setOverflow s).cursor = s.cursor := rfl
@[simp] theorem setOverflow_ovf (s : State) : (setOverflow s).ovf = true := rfl
@[simp] theorem setOverflow_store (s : State) : (setOverflow s).store = s.store := rfl
@[simp] theorem setOverflow_build (s : State) : (setOverflow s).build = s.build := rfl
@[simp] theorem setOverflow_pending (s : State) : (setOverflow s).pending = s.pending := rfl
@[simp] theorem setOverflow_sampledData (s : State) : (setOverflow s).sampledData = s.sampledData := rfl
@[simp] theorem setOverflow_response (s : State) : (setOverflow s).response = s.response := rfl
@[simp] theorem setOverflow_dispatch (s : State) : (setOverflow s).dispatch = s.dispatch := rfl

/-! ### `deliver` -/

@[simp] theorem deliver_cfg (d : Delivery) (rest : List Delivery) (s : State) : (deliver d rest s).cfg = s.cfg := rfl
@[simp] theorem deliver_exp (d : Delivery) (rest : List Delivery) (s : State) : (deliver d rest s).exp = s.exp := rfl
@[simp] theorem deliver_cursor (d : Delivery) (rest : List Delivery) (s : State) :
    (deliver d rest s).cursor = s.cursor := rfl
@[simp] theorem deliver_ovf (d : Delivery) (rest : List Delivery) (s : State) : (deliver d rest s).ovf = s.ovf := rfl
@[simp] theorem deliver_store (d : Delivery) (rest : List Delivery) (s : State) :
    (deliver d rest s).store = s.store := rfl
@[simp] theorem deliver_build (d : Delivery) (rest : List Delivery) (s : State) :
    (deliver d rest s).build = s.build := rfl
@[simp] theorem deliver_pending (d : Delivery) (rest : List Delivery) (s : State) :
    (deliver d rest s).pending = rest := rfl
@[simp] theorem deliver_sampledData (d : Delivery) (rest : List Delivery) (s : State) :
    (deliver d rest s).sampledData = d.sampled := rfl
@[simp] theorem deliver_response (d : Delivery) (rest : List Delivery) (s : State) :
    (deliver d rest s).response = none := rfl
@[simp] theorem deliver_dispatch (d : Delivery) (rest : List Delivery) (s : State) :
    (deliver d rest s).dispatch = [] := rfl

/-! ### `idle` -/

@[simp] theorem idle_cfg (s : State) : (idle s).cfg = s.cfg := rfl
@[simp] theorem idle_exp (s : State) : (idle s).exp = s.exp := rfl
@[simp] theorem idle_cursor (s : State) : (idle s).cursor = s.cursor := rfl
@[simp] theorem idle_ovf (s : State) : (idle s).ovf = s.ovf := rfl
@[simp] theorem idle_store (s : State) : (idle s).store = s.store := rfl
@[simp] theorem idle_build (s : State) : (idle s).build = s.build := rfl
@[simp] theorem idle_pending (s : State) : (idle s).pending = s.pending := rfl
@[simp] theorem idle_sampledData (s : State) : (idle s).sampledData = s.sampledData := rfl
@[simp] theorem idle_response (s : State) : (idle s).response = none := rfl
@[simp] theorem idle_dispatch (s : State) : (idle s).dispatch = [] := rfl

/-! ### `dispatchReading` -/

@[simp] theorem dispatchReading_cfg (r : Option Reading) (s : State) :
    (dispatchReading r s).cfg = s.cfg := by cases r <;> rfl
@[simp] theorem dispatchReading_exp (r : Option Reading) (s : State) :
    (dispatchReading r s).exp = s.exp := by cases r <;> rfl
@[simp] theorem dispatchReading_cursor (r : Option Reading) (s : State) :
    (dispatchReading r s).cursor = s.cursor := by cases r <;> rfl
@[simp] theorem dispatchReading_ovf (r : Option Reading) (s : State) :
    (dispatchReading r s).ovf = s.ovf := by cases r <;> rfl
@[simp] theorem dispatchReading_store (r : Option Reading) (s : State) :
    (dispatchReading r s).store = s.store := by cases r <;> rfl
@[simp] theorem dispatchReading_build (r : Option Reading) (s : State) :
    (dispatchReading r s).build = s.build := by cases r <;> rfl
@[simp] theorem dispatchReading_pending (r : Option Reading) (s : State) :
    (dispatchReading r s).pending = s.pending := by cases r <;> rfl
@[simp] theorem dispatchReading_sampledData (r : Option Reading) (s : State) :
    (dispatchReading r s).sampledData = s.sampledData := by cases r <;> rfl
@[simp] theorem dispatchReading_response (r : Option Reading) (s : State) :
    (dispatchReading r s).response = s.response := by cases r <;> rfl
@[simp] theorem dispatchReading_dispatch (r : Option Reading) (s : State) :
    (dispatchReading r s).dispatch = s.dispatch ++ r.toList := by cases r <;> simp [dispatchReading]

/-! ### `State.powerOn` -/

@[simp] theorem powerOn_cfg (b : Build) : (State.powerOn b).cfg = false := rfl
@[simp] theorem powerOn_exp (b : Build) : (State.powerOn b).exp = 0 := rfl
@[simp] theorem powerOn_cursor (b : Build) : (State.powerOn b).cursor = 0 := rfl
@[simp] theorem powerOn_ovf (b : Build) : (State.powerOn b).ovf = false := rfl
@[simp] theorem powerOn_store (b : Build) : (State.powerOn b).store = [] := rfl
@[simp] theorem powerOn_build (b : Build) : (State.powerOn b).build = b := rfl
@[simp] theorem powerOn_pending (b : Build) : (State.powerOn b).pending = [] := rfl
@[simp] theorem powerOn_sampledData (b : Build) : (State.powerOn b).sampledData = false := rfl
@[simp] theorem powerOn_response (b : Build) : (State.powerOn b).response = none := rfl
@[simp] theorem powerOn_dispatch (b : Build) : (State.powerOn b).dispatch = [] := rfl

/-! ### The prologue -/

@[simp] theorem whenConfigured_of_cfg (f : State → State) (s : State) (h : s.cfg = true) :
    whenConfigured f s = f s := by simp [whenConfigured, h]

@[simp] theorem whenConfigured_of_not_cfg (f : State → State) (s : State) (h : s.cfg = false) :
    whenConfigured f s = respond .nocfg 0 s := by simp [whenConfigured, h]

end Sys2Proof.Machine
end

