-- ==== Sys2Proof/Laws/Step.lean ====
section
/-! SUPPORT. What a command can do, said once (`exec_effect`), and what a step can do (`step_cases`); every claim
about them is derived from these two. -/

namespace Sys2Proof.Machine

/-- The effects a command can have, each with its guard: first the answers that change no field of `S`, then the
commands that do. -/
inductive Effect (i : Instr) (s t : State) : Prop where
  /-- Not configured (40_accumulator.md R101). -/
  | nocfg (hi : i ≠ .nop) (hi' : ∀ e, i ≠ .configure e) (hcfg : s.cfg = false) (h : t = respond .nocfg 0 s)
  /-- A second CONFIGURE. -/
  | second (e : Half) (hi : i = .configure e) (hcfg : s.cfg = true) (h : t = respond .illegal 0 s)
  /-- CONFIGURE with an illegal length. -/
  | badLength (e : Half) (hi : i = .configure e) (hcfg : s.cfg = false) (hlegal : legalExp s.build e = false)
      (h : t = respond .range 0 s)
  /-- BIT_AT outside the window. -/
  | badBit (p : Half) (hi : i = .bitAt p) (hcfg : s.cfg = true) (hp : storeBits s.exp ≤ p.toNat)
      (h : t = respond .range 0 s)
  /-- BYTE_AT that would leave the window. -/
  | badByte (p : Half) (hi : i = .byteAt p) (hcfg : s.cfg = true) (hp : storeBits s.exp < p.toNat + 8)
      (h : t = respond .range 0 s)
  /-- NOP. -/
  | nop (hi : i = .nop) (h : t = respond .ok 0 s)
  /-- SIZE. -/
  | size (hi : i = .size) (hcfg : s.cfg = true) (h : t = respond .ok s.cursor s)
  /-- BIT_AT inside the window. -/
  | bit (p : Half) (hi : i = .bitAt p) (hcfg : s.cfg = true) (hp : p.toNat < storeBits s.exp)
      (h : t = respond .ok (zextBit (s.bitRead p.toNat)) s)
  /-- BYTE_AT inside the window. -/
  | byte (p : Half) (hi : i = .byteAt p) (hcfg : s.cfg = true) (hp : p.toNat + 8 ≤ storeBits s.exp)
      (h : t = respond .ok (zextByte (memRead8 s.bitRead p.toNat)) s)
  /-- CONFIGURE, accepted. -/
  | create (e : Half) (hi : i = .configure e) (hcfg : s.cfg = false) (hlegal : legalExp s.build e = true)
      (h : t = respond .ok 0 (create e s))
  /-- A push below capacity. -/
  | append (v : Bool) (hi : i = .pushBit v ∨ (i = .clkEdge ∧ v = s.sampledData)) (hcfg : s.cfg = true)
      (hcap : s.cursor ≠ s.exp) (h : t = respond .ok 0 (append v s))
  /-- A push at capacity. -/
  | overflow (hi : i = .clkEdge ∨ ∃ v, i = .pushBit v) (hcfg : s.cfg = true) (hcap : s.cursor = s.exp)
      (h : t = respond .ok 0 (setOverflow s))
  /-- RESET. -/
  | reset (hi : i = .reset) (hcfg : s.cfg = true) (h : t = respond .ok 0 (accReset s))
  /-- EN_EDGE. -/
  | enEdge (hi : i = .enEdge) (hcfg : s.cfg = true)
      (h : t = respond .ok 0 (accReset (dispatchReading (frameReading s) s)))

theorem push_effect (v : Bool) (s : State) :
    (s.cursor ≠ s.exp ∧ push v s = respond .ok 0 (append v s)) ∨
      (s.cursor = s.exp ∧ push v s = respond .ok 0 (setOverflow s)) := by
  by_cases h : s.cursor = s.exp
  · exact .inr ⟨h, by simp [push, atCapacity, h]⟩
  · exact .inl ⟨h, by simp [push, atCapacity, h]⟩

theorem configure_effect (e : Half) (s : State) :
    ∃ t, exec (.configure e) s = .next t ∧ Effect (.configure e) s t := by
  refine ⟨_, rfl, ?_⟩
  cases hcfg : s.cfg with
  | true => exact .second e rfl hcfg (by simp [answerIllegal])
  | false =>
    cases hl : legalExp s.build e with
    | true => exact .create e rfl hcfg hl (by simp)
    | false => exact .badLength e rfl hcfg hl (by simp)

theorem bitAt_effect (p : Half) (s : State) (hcfg : s.cfg = true) :
    ∃ t, exec (.bitAt p) s = .next t ∧ Effect (.bitAt p) s t := by
  refine ⟨_, rfl, ?_⟩
  rw [whenConfigured_of_cfg _ _ hcfg]
  by_cases hp : storeBits s.exp ≤ p.toNat
  · exact .badBit p rfl hcfg hp (by simp [positionOf, hp])
  · exact .bit p rfl hcfg (Nat.not_le.mp hp) (by simp [positionOf, hp])

theorem byteAt_effect (p : Half) (s : State) (hcfg : s.cfg = true) :
    ∃ t, exec (.byteAt p) s = .next t ∧ Effect (.byteAt p) s t := by
  refine ⟨_, rfl, ?_⟩
  rw [whenConfigured_of_cfg _ _ hcfg]
  by_cases hp : storeBits s.exp < p.toNat + 8
  · exact .badByte p rfl hcfg hp (by simp [positionOf, hp])
  · exact .byte p rfl hcfg (Nat.not_lt.mp hp) (by simp [positionOf, hp])

/-- Every command answers a next state, with one of the effects. -/
theorem exec_effect (i : Instr) (s : State) : ∃ t, exec i s = .next t ∧ Effect i s t := by
  cases hcfg : s.cfg with
  | false =>
    have hno : ∀ f, whenConfigured f s = respond .nocfg 0 s := fun f => whenConfigured_of_not_cfg f s hcfg
    cases i with
    | nop => exact ⟨_, rfl, .nop rfl rfl⟩
    | configure e => exact configure_effect e s
    | pushBit v => exact ⟨_, rfl, .nocfg (by simp) (by simp) hcfg (hno _)⟩
    | bitAt p => exact ⟨_, rfl, .nocfg (by simp) (by simp) hcfg (hno _)⟩
    | byteAt p => exact ⟨_, rfl, .nocfg (by simp) (by simp) hcfg (hno _)⟩
    | size => exact ⟨_, rfl, .nocfg (by simp) (by simp) hcfg (hno _)⟩
    | reset => exact ⟨_, rfl, .nocfg (by simp) (by simp) hcfg (hno _)⟩
    | clkEdge => exact ⟨_, rfl, .nocfg (by simp) (by simp) hcfg (hno _)⟩
    | enEdge => exact ⟨_, rfl, .nocfg (by simp) (by simp) hcfg (hno _)⟩
  | true =>
    have hyes : ∀ f, whenConfigured f s = f s := fun f => whenConfigured_of_cfg f s hcfg
    cases i with
    | nop => exact ⟨_, rfl, .nop rfl rfl⟩
    | configure e => exact configure_effect e s
    | pushBit v =>
      refine ⟨_, rfl, ?_⟩
      rw [hyes]
      rcases push_effect v s with ⟨h, hp⟩ | ⟨h, hp⟩
      · exact .append v (.inl rfl) hcfg h hp
      · exact .overflow (.inr ⟨v, rfl⟩) hcfg h hp
    | bitAt p => exact bitAt_effect p s hcfg
    | byteAt p => exact byteAt_effect p s hcfg
    | size => exact ⟨_, rfl, .size rfl hcfg (hyes _)⟩
    | reset => exact ⟨_, rfl, .reset rfl hcfg (hyes _)⟩
    | clkEdge =>
      refine ⟨_, rfl, ?_⟩
      rw [hyes]
      rcases push_effect s.sampledData s with ⟨h, hp⟩ | ⟨h, hp⟩
      · exact .append _ (.inr ⟨rfl, rfl⟩) hcfg h hp
      · exact .overflow (.inl rfl) hcfg h hp
    | enEdge => exact ⟨_, rfl, .enEdge rfl hcfg (hyes _)⟩

/-- The effects are all there is: whatever a command answers is one of them. -/
theorem exec_inv (i : Instr) (s t : State) (h : exec i s = .next t) : Effect i s t := by
  obtain ⟨u, hu, he⟩ := exec_effect i s
  rw [hu] at h
  cases h
  exact he

/-- What every command leaves alone, and that every command is answered, `OVF` being the flag after it. -/
theorem Effect.environment {i : Instr} {s t : State} (h : Effect i s t) :
    t.build = s.build ∧ t.pending = s.pending ∧ t.sampledData = s.sampledData ∧
      ∃ status data, t.response = some ⟨status, t.ovf, data⟩ := by
  cases h <;> subst_vars <;> simp

/-- What one step can do. -/
inductive StepCase (s t : State) : Prop where
  | idle (hp : s.pending = []) (h : t = idle s)
  | illegal (d : Delivery) (rest : List Delivery) (hp : s.pending = d :: rest) (why : IllegalCause)
      (hd : decode d.word = .illegal why) (h : t = answerIllegal (deliver d rest s))
  | command (d : Delivery) (rest : List Delivery) (hp : s.pending = d :: rest) (i : Instr)
      (hd : decode d.word = .command i) (he : exec i (deliver d rest s) = .next t)

theorem step_of_pending_nil (s : State) (h : s.pending = []) : step s = .next (idle s) := by simp [step, h]

theorem step_of_illegal (s : State) (d : Delivery) (rest : List Delivery) (why : IllegalCause)
    (hp : s.pending = d :: rest) (hd : decode d.word = .illegal why) :
    step s = .next (answerIllegal (deliver d rest s)) := by simp [step, hp, hd]

theorem step_of_command (s : State) (d : Delivery) (rest : List Delivery) (i : Instr)
    (hp : s.pending = d :: rest) (hd : decode d.word = .command i) :
    step s = exec i (deliver d rest s) := by simp [step, hp, hd]

theorem step_cases (s t : State) (h : step s = .next t) : StepCase s t := by
  cases hp : s.pending with
  | nil =>
    rw [step_of_pending_nil s hp] at h
    cases h
    exact .idle hp rfl
  | cons d rest =>
    cases hd : decode d.word with
    | command i => exact .command d rest hp i hd (step_of_command s d rest i hp hd ▸ h)
    | illegal why =>
      rw [step_of_illegal s d rest why hp hd] at h
      cases h
      exact .illegal d rest hp why hd rfl

end Sys2Proof.Machine
end

