-- ==== Sys2Proof/Machine/Assembler.lean ====
section
/-! DEFINITION. The assembler syntax of the spec's programs (30_encoding.md R68) and its pseudo-instructions
(R69), down to the deliveries on the command port. No rule of the machine depends on it. -/

namespace Sys2Proof.Machine.Asm

/-! ### Pseudo-instructions (30_encoding.md R69) -/

/-- Bit `k` of the byte string `h`, MSB-first: bit `7 - (k mod 8)` of byte `k div 8`. -/
def bitOfBytes (h : List Byte) (k : Nat) : Bool := (h.getD (k / 8) 0).getLsbD (7 - k % 8)

/-- `PUSH_BITS n, h`. The data level stands unread beside each command. -/
def pushBits (n : Nat) (h : List Byte) (level : Bool) : List Delivery :=
  (List.range n).map fun k => ⟨encode (.pushBit (bitOfBytes h k)), level⟩

/-- `CLK_BITS n, h`. -/
def clkBits (n : Nat) (h : List Byte) : List Delivery :=
  (List.range n).map fun k => ⟨encode .clkEdge, bitOfBytes h k⟩

/-- `FRAME n, h`. -/
def frame (n : Nat) (h : List Byte) (level : Bool) : List Delivery :=
  clkBits n h ++ [⟨encode .enEdge, level⟩]

/-! ### Lines of text (30_encoding.md R68) -/

/-- The value of a hexadecimal digit. -/
def hexDigit (c : Char) : Option Nat :=
  if '0' ≤ c ∧ c ≤ '9' then some (c.toNat - 48)
  else if 'A' ≤ c ∧ c ≤ 'F' then some (c.toNat - 55)
  else if 'a' ≤ c ∧ c ≤ 'f' then some (c.toNat - 87)
  else none

/-- The value of a digit string in a base up to 16, most significant digit first. -/
def digits (base : Nat) : List Char → Nat → Option Nat
  | [], acc => some acc
  | c :: cs, acc => do
    let d ← hexDigit c
    if d < base then digits base cs (acc * base + d) else none

/-- An operand: decimal, or hexadecimal after `0x`. -/
def number : List Char → Option Nat
  | '0' :: 'x' :: c :: cs => digits 16 (c :: cs) 0
  | c :: cs => digits 10 (c :: cs) 0
  | [] => none

/-- A hexadecimal string as bytes, two digits each. -/
def hexBytes : List Char → Option (List Byte)
  | [] => some []
  | [_] => none
  | c :: d :: cs => do
    let hi ← hexDigit c
    let lo ← hexDigit d
    let rest ← hexBytes cs
    some (BitVec.ofNat 8 (16 * hi + lo) :: rest)

/-- A line without its comment, which `;` starts. -/
def withoutComment (line : List Char) : List Char := line.takeWhile (· != ';')

/-- The words of a line, cut at spaces and commas. -/
def words : List Char → List Char → List (List Char)
  | [], acc => if acc.isEmpty then [] else [acc.reverse]
  | c :: cs, acc =>
    if c = ' ' ∨ c = ',' then (if acc.isEmpty then words cs [] else acc.reverse :: words cs [])
    else words cs (c :: acc)

/-- The annotation of the sampled data level, `d=0` or `d=1` between curly braces (characters 123 and 125). -/
def annotation (w : List Char) : Option Bool :=
  if w = [Char.ofNat 123, 'd', '=', '0', Char.ofNat 125] then some false
  else if w = [Char.ofNat 123, 'd', '=', '1', Char.ofNat 125] then some true
  else none

/-- The operation codes of the commands that take no operand. -/
def bareCode (w : List Char) : Option Nat :=
  if w = ['N', 'O', 'P'] then some 0x0
  else if w = ['S', 'I', 'Z', 'E'] then some 0x5
  else if w = ['R', 'E', 'S', 'E', 'T'] then some 0x6
  else if w = ['C', 'L', 'K', '_', 'E', 'D', 'G', 'E'] then some 0x7
  else if w = ['E', 'N', '_', 'E', 'D', 'G', 'E'] then some 0x8
  else none

/-- The operation codes of the commands that take one operand. -/
def operandCode (w : List Char) : Option Nat :=
  if w = ['C', 'O', 'N', 'F', 'I', 'G', 'U', 'R', 'E'] then some 0x1
  else if w = ['P', 'U', 'S', 'H', '_', 'B', 'I', 'T'] then some 0x2
  else if w = ['B', 'I', 'T', '_', 'A', 'T'] then some 0x3
  else if w = ['B', 'Y', 'T', 'E', '_', 'A', 'T'] then some 0x4
  else none

/-- `OP << 28 | OPND`, for an operand that fits its field. -/
def commandWord (op opnd : Nat) : Option Word :=
  if opnd < 2 ^ 16 then some (BitVec.ofNat 32 (op <<< 28 ||| opnd)) else none

/-- The deliveries a pseudo-instruction expands to; the string must hold `n` bits. -/
def expand (name : List Char) (n : Nat) (h : List Byte) (level : Bool) : Option (List Delivery) :=
  if 8 * h.length < n then none
  else if name = ['P', 'U', 'S', 'H', '_', 'B', 'I', 'T', 'S'] then some (pushBits n h level)
  else if name = ['C', 'L', 'K', '_', 'B', 'I', 'T', 'S'] then some (clkBits n h)
  else if name = ['F', 'R', 'A', 'M', 'E'] then some (frame n h level)
  else none

/-- The deliveries of a line cut into words. `level` is the data level where the line does not annotate one. The
directive `.word` is the one 95_test_vectors.md uses in program P1. -/
def assembleWords (level : Bool) : List (List Char) → Option (List Delivery)
  | [] => some []
  | [m] => (bareCode m).bind fun op => (commandWord op 0).map fun w => [⟨w, level⟩]
  | [m, a] =>
    if m = ['.', 'w', 'o', 'r', 'd'] then
      (number a).bind fun w => if w < 2 ^ 32 then some [⟨BitVec.ofNat 32 w, level⟩] else none
    else if bareCode m = some 0x7 then
      (annotation a).bind fun d => (commandWord 0x7 0).map fun w => [⟨w, d⟩]
    else
      (operandCode m).bind fun op => (number a).bind fun n => (commandWord op n).map fun w => [⟨w, level⟩]
  | [m, a, h] => (number a).bind fun n => (hexBytes h).bind fun bs => expand m n bs level
  | _ => none

/-- One line of a program (30_encoding.md R68), as the deliveries it stands for; `none` is a line that has none. -/
def assembleLine (line : List Char) (level : Bool) : Option (List Delivery) :=
  assembleWords level (words (withoutComment line) [])

/-- A program, line by line, as the commands the host delivers. -/
def assemble : List (List Char) → Bool → Option (List Delivery)
  | [], _ => some []
  | l :: ls, level => do
    let ds ← assembleLine l level
    let rest ← assemble ls level
    some (ds ++ rest)

end Sys2Proof.Machine.Asm
end

