-- ==== Sys2Proof/Tests/Slice0.lean ====
section
/-! SUPPORT. Tests of one step each, with expected results from 95_test_vectors.md (named in each comment) or from
the encoding tables, and the witnesses of the hypotheses of the statements. -/

namespace Sys2Proof.Machine.Tests

/-! ### Helpers -/

/-- The storage that holds the bytes `h` from position 0. -/
def held (h : List Byte) : Memory :=
  (h.zipIdx.filter fun c => c.1 != 0).map fun c => (c.2, c.1)

/-- A block of the reference instance, configured for `e` bits, with `cursor` bits pushed that read as `h`. -/
def block (e cursor : Half) (h : List Byte) : State :=
  { State.powerOn Build.ref with cfg := true, exp := e, cursor := cursor, store := held h }

/-- The block of the reference instance at power-on. -/
def fresh : State := State.powerOn Build.ref

/-- The state `s` with one command delivered. -/
def given (s : State) (w : Word) (level : Bool) : State := { s with pending := [⟨w, level⟩] }

/-- The state after the command `w`. -/
def after (s : State) (w : Word) (level : Bool := false) : Option State :=
  match step (given s w level) with
  | .next t => some t
  | .fault _ => none
  | .refused _ => none

/-- The response word to the command `w`. -/
def answer (s : State) (w : Word) (level : Bool := false) : Option Word :=
  (after s w level).bind fun t => t.response.map Response.word

/-- The records on the dispatch port after the command `w`. -/
def emitted (s : State) (w : Word) : Option (List Record) :=
  (after s w).map fun t => t.dispatch.map Reading.record

/-- The bytes of a primary field of the reference instance, as frame bits. -/
def bitsOf (h : List Byte) : Nat → Bool := Asm.bitOfBytes h

/-! ### Well-formedness: each check refuses an ill-formed term (30_encoding.md R63, R72) -/

theorem test_wellEncoded_accepts_table_words :
    wellEncoded 0x00000000 = true ∧ wellEncoded 0x1000FFFF = true ∧ wellEncoded 0x20000001 = true ∧
      wellEncoded 0x80000000 = true := by decide

theorem test_wellEncoded_refuses_reserved_op :
    wellEncoded 0x90000000 = false ∧ wellEncoded 0xF0000000 = false := by decide

theorem test_wellEncoded_refuses_reserved_field :
    wellEncoded 0x50010000 = false ∧ wellEncoded 0x18000089 = false := by decide

theorem test_wellEncoded_refuses_operand_bits :
    wellEncoded 0x00000001 = false ∧ wellEncoded 0x20000002 = false ∧ wellEncoded 0x50008000 = false ∧
      wellEncoded 0x60000005 = false ∧ wellEncoded 0x70000001 = false ∧ wellEncoded 0x80000100 = false := by decide

theorem test_segTable_accepts_reference : segTableWellFormed Build.refTable = true := by decide

theorem test_segTable_refuses_wrong_count : segTableWellFormed (Build.refTable ++ [(0x00, .ol)]) = false := by decide

theorem test_segTable_refuses_repeated_pattern :
    segTableWellFormed (Build.refTable.dropLast ++ [(0x38, .ol)]) = false := by decide

theorem test_segTable_refuses_third_form :
    segTableWellFormed (Build.refTable.dropLast ++ [(0x00, .digit 9)]) = false := by decide

theorem test_segTable_refuses_two_bit_difference :
    segTableWellFormed (Build.refTable.dropLast ++ [(0xB9, .ol)]) = false := by decide

/-! ### Decoding: words written out from 30_encoding.md R61 and R62, OP, RSV, OPND -/

theorem test_decode_nop : decode 0b00000000000000000000000000000000 = .command .nop := by decide
theorem test_decode_configure : decode 0b00010000000000000000000010001001 = .command (.configure 137) := by decide
theorem test_decode_pushBit :
    decode 0b00100000000000000000000000000000 = .command (.pushBit false) ∧
      decode 0b00100000000000000000000000000001 = .command (.pushBit true) := by decide
theorem test_decode_bitAt : decode 0b00110000000000001000000000000001 = .command (.bitAt 0x8001) := by decide
theorem test_decode_byteAt : decode 0b01000000000000000000000010010000 = .command (.byteAt 144) := by decide
theorem test_decode_size : decode 0b01010000000000000000000000000000 = .command .size := by decide
theorem test_decode_reset : decode 0b01100000000000000000000000000000 = .command .reset := by decide
theorem test_decode_clkEdge : decode 0b01110000000000000000000000000000 = .command .clkEdge := by decide
theorem test_decode_enEdge : decode 0b10000000000000000000000000000000 = .command .enEdge := by decide

theorem test_decode_rejects_by_name :
    decode 0x90000000 = .illegal .reservedOp ∧ decode 0x50010000 = .illegal .reservedField ∧
      decode 0x20000002 = .illegal .operandBits ∧ decode 0x60000005 = .illegal .operandBits := by decide

theorem test_decodeTableWord :
    decodeTableWord 32 0x10000089 = some (.configure 137) ∧ decodeTableWord 32 0xA0000000 = none := by decide

/-- The examples of 30_encoding.md R68. -/
theorem test_encode_examples : encode (.pushBit true) = 0x20000001 ∧ encode (.configure 137) = 0x10000089 := by decide

/-! ### The assembler (30_encoding.md R68, R69; program P4 of 95_test_vectors.md) -/

theorem test_assemble_line :
    Asm.assembleLine "CONFIGURE 137 ; comment".toList false = some [⟨0x10000089, false⟩] ∧
      Asm.assembleLine "BIT_AT 0x97".toList false = some [⟨0x30000097, false⟩] ∧
      Asm.assembleLine "NOP 1".toList false = none ∧
      Asm.assembleLine "CONFIGURE 65536".toList false = none := by decide

theorem test_assemble_annotation :
    Asm.assembleLine ("CLK_EDGE ".toList ++ [Char.ofNat 123, 'd', '=', '1', Char.ofNat 125]) false =
      some [⟨0x70000000, true⟩] := by decide

theorem test_assemble_frame :
    Asm.assembleLine "FRAME 3, A0".toList false =
      some [⟨0x70000000, true⟩, ⟨0x70000000, false⟩, ⟨0x70000000, true⟩, ⟨0x80000000, false⟩] := by decide

/-! ### One command each (95_test_vectors.md, vectors A1 to A42) -/

/-- A3, A32: NOP, before CONFIGURE, and with the overflow flag set. -/
theorem test_nop :
    answer fresh 0x00000000 = some 0x00000000 ∧
      answer { block 137 137 [] with ovf := true } 0x00000000 = some 0x00010000 := by decide

/-- A4, A5, A37, A38, A17: the lengths CONFIGURE refuses, and a second CONFIGURE. -/
theorem test_configure_refuses :
    answer fresh 0x10000000 = some 0x80000000 ∧ answer fresh 0x10000101 = some 0x80000000 ∧
      answer fresh 0x10000010 = some 0x80000000 ∧ answer fresh 0x1000005C = some 0x80000000 ∧
      answer (block 137 9 []) 0x10000089 = some 0x40000000 := by decide

/-- A6, A39, A42: the lengths CONFIGURE accepts. -/
theorem test_configure_accepts :
    answer fresh 0x10000089 = some 0x00000000 ∧ answer fresh 0x1000005D = some 0x00000000 ∧
      answer fresh 0x10000100 = some 0x00000000 ∧
      (after fresh 0x10000089).map (fun t => (t.cfg, t.exp, t.cursor)) = some (true, 137, 0) := by decide

/-- A7 (its last push, of bit 8) and A28: a push below capacity, and one at capacity. -/
theorem test_pushBit :
    (after (block 137 8 [0xB2]) 0x20000001).map (fun t => (t.cursor, t.store)) = some (9, [(0, 0xB2), (1, 0x80)]) ∧
      answer (block 137 137 []) 0x20000001 = some 0x00010000 := by decide

/-- A11 to A14, A30, A31. -/
theorem test_bitAt :
    answer (block 137 9 [0xB2, 0x80]) 0x30000008 = some 0x00000001 ∧
      answer (block 137 9 [0xB2, 0x80]) 0x30000009 = some 0x00000000 ∧
      answer (block 137 9 [0xB2, 0x80]) 0x30000097 = some 0x00000000 ∧
      answer (block 137 9 [0xB2, 0x80]) 0x30000098 = some 0x80000000 := by decide

/-- A8 to A10, A15, A16. -/
theorem test_byteAt :
    answer (block 137 9 [0xB2, 0x80]) 0x40000000 = some 0x000000B2 ∧
      answer (block 137 9 [0xB2, 0x80]) 0x40000001 = some 0x00000065 ∧
      answer (block 137 9 [0xB2, 0x80]) 0x40000002 = some 0x000000CA ∧
      answer (block 137 9 [0xB2, 0x80]) 0x40000090 = some 0x00000000 ∧
      answer (block 137 9 [0xB2, 0x80]) 0x40000091 = some 0x80000000 := by decide

/-- P1 step 11, A29, A1. -/
theorem test_size :
    answer (block 137 9 [0xB2, 0x80]) 0x50000000 = some 0x00000009 ∧
      answer { block 137 137 [] with ovf := true } 0x50000000 = some 0x00010089 ∧
      answer fresh 0x50000000 = some 0xC0000000 := by decide

/-- A18, A33. -/
theorem test_reset :
    answer { block 137 137 [0xB2, 0x80] with ovf := true } 0x60000000 = some 0x00000000 ∧
      (after { block 137 137 [0xB2, 0x80] with ovf := true } 0x60000000).map (fun t => (t.cursor, t.ovf, t.store)) =
        some (0, false, []) := by decide

/-- The example of 41_frame_control.md R131, and P4 step 1: an edge before CONFIGURE is lost. -/
theorem test_clkEdge :
    (after (block 137 0 []) 0x70000000 true).map (fun t => (t.cursor, t.store)) = some (1, [(0, 0x80)]) ∧
      answer fresh 0x70000000 true = some 0xC0000000 := by decide

/-- A21 to A26, A34, A35: illegal words, and the order of the statuses. -/
theorem test_illegal_words :
    ([0x90000000, 0xF0000000, 0x20000002, 0x50010000, 0x00000001, 0x60000005].all fun w =>
        answer (block 137 0 []) w == some 0x40000000) = true ∧
      answer fresh 0x30010000 = some 0x40000000 ∧ answer fresh 0x30000098 = some 0xC0000000 ∧
      answer (block 137 0 []) 0x10000010 = some 0x40000000 := by decide

/-- A word placed where the step takes its next command is the one it runs, from reset (40_accumulator.md R101). -/
theorem test_withFetchWord :
    step (State.reset.withFetchWord 32 0x00000000) = exec .nop (deliver ⟨0x00000000, false⟩ [] State.reset) ∧
      step (State.reset.withFetchWord 32 0x20000001) = .next (respond .nocfg 0 State.reset) ∧
      step (State.reset.withFetchWord 32 0x10000000) = .next (respond .range 0 State.reset) := ⟨rfl, rfl, rfl⟩

/-! ### Frames (95_test_vectors.md, vectors V-F and V-L) -/

/-- V-F1, the record of 30_encoding.md R74, and the accumulator after the dispatch. -/
theorem test_enEdge_dispatches :
    emitted (block 137 137 [0x00, 0x66, 0x4F, 0x5B, 0x06, 0, 0, 0, 0, 0, 0x80]) 0x80000000 =
        some [0x409348000000000000000000000000000004D20000000000] ∧
      (after (block 137 137 [0x00, 0x66, 0x4F, 0x5B, 0x06, 0, 0, 0, 0, 0, 0x80]) 0x80000000).map
        (fun t => (t.cursor, t.ovf, t.store)) = some (0, false, []) := by decide

/-- V-F7 (no mode flag), V-L2 (short), V-L3 (overflow): nothing is emitted. -/
theorem test_enEdge_discards :
    emitted (block 137 137 [0x00, 0x66, 0x4F, 0x5B, 0x06]) 0x80000000 = some [] ∧
      emitted (block 137 136 [0x00, 0x66, 0x4F, 0x5B, 0x06, 0, 0, 0, 0, 0, 0x80]) 0x80000000 = some [] ∧
      emitted { block 137 137 [0x00, 0x66, 0x4F, 0x5B, 0x06, 0, 0, 0, 0, 0, 0x80] with ovf := true } 0x80000000 =
        some [] := by decide

/-- V-F4: overload, with a scale flag and a sign that are not applied. -/
theorem test_record_overloaded :
    emitted (block 137 137 [0x00, 0x6D, 0x38, 0x5B, 0x86, 0, 0, 0, 0, 0, 0x80, 0x40]) 0x80000000 =
      some [0x401400000000000000000000000000008000050000000000] := by decide

/-- V-F5: an AC frame with its secondary field. -/
theorem test_record_secondary :
    emitted (block 137 137 [0x00, 0x3F, 0x6D, 0xDB, 0x06, 0x00, 0xBF, 0x3F, 0x7D, 0x00, 0x48, 0x20]) 0x80000000 =
      some [0x3F547AE147AE147B404E0000000000003684E2FC25800000] := by decide

/-- V-F12: the smallest exponent. -/
theorem test_record_smallest_exponent :
    emitted (block 137 137 [0x00, 0xEF, 0xEF, 0xEF, 0x6F, 0, 0, 0, 0, 0, 0x10, 0x10]) 0x80000000 =
      some [0x3E457902256482CB000000000000000055270F0000000000] := by decide

/-! ### The decoder's functions (95_test_vectors.md, vectors M, X, C, P- and S-) -/

/-- M1 to M13, in the reference instance's byte 10. -/
theorem test_resolveMode :
    ([0x80, 0x88, 0xC8, 0x40, 0x48, 0x6C, 0x20, 0x28, 0x10, 0x18, 0x00, 0x08, 0xF8].map fun c =>
        resolveMode Build.ref (bitsOf [0, 0, 0, 0, 0, 0, 0, 0, 0, 0, c])) =
      [some .voltageDC, some .voltageAC, some .voltageAC, some .currentDC, some .currentAC, some .currentAC,
       some .resistance, some .resistance, some .temperature, some .temperature, none, none, some .voltageAC] := by
  decide

/-- X1 to X9, in the reference instance's byte 11. -/
theorem test_scaleExponent :
    ([0x00, 0x80, 0x40, 0x20, 0x10, 0x90, 0x60, 0xF0, 0x30].map fun c =>
        scaleExponent Build.ref (bitsOf [0, 0, 0, 0, 0, 0, 0, 0, 0, 0, 0, c])) =
      [0, 6, 3, -3, -6, 6, 3, 6, -3] := by decide

/-- C2, C5, C6, C8, C9, C14: points, sign, the overload stop, OL elsewhere, the sign of a blank digit. -/
theorem test_scanPrimary :
    scanPrimary Build.ref (bitsOf [0, 0xE6, 0x4F, 0x5B, 0x06]) = ⟨false, 1234, -1, false⟩ ∧
      scanPrimary Build.ref (bitsOf [0, 0x66, 0x4F, 0x5B, 0x86]) = ⟨false, 1234, 0, true⟩ ∧
      scanPrimary Build.ref (bitsOf [0, 0xEF, 0xEF, 0xEF, 0x6F]) = ⟨false, 9999, -6, false⟩ ∧
      scanPrimary Build.ref (bitsOf [0, 0xED, 0x38, 0x5B, 0x86]) = ⟨true, 5, -1, false⟩ ∧
      scanPrimary Build.ref (bitsOf [0, 0x38, 0x4F, 0x5B, 0x06]) = ⟨false, 1230, 0, false⟩ ∧
      scanPrimary Build.ref (bitsOf [0, 0x00, 0x00, 0x00, 0x80]) = ⟨false, 0, 0, true⟩ := by decide

/-- P-1 to P-5: the primary value, scaled and signed unless overloaded. -/
theorem test_composePrimary :
    composePrimary ⟨false, 1234, -2, true⟩ 0 = ⟨1234, -2, true, 0xC028AE147AE147AE⟩ ∧
      composePrimary ⟨true, 5, -1, false⟩ 3 = ⟨5, 0, false, 0x4014000000000000⟩ := by decide

/-- P-6, P-7, P-12 to P-19: the conversion to binary64. -/
theorem test_primary64 :
    primary64 0 0 true = 0x8000000000000000 ∧ primary64 0 (-6) false = 0x0000000000000000 ∧
      primary64 9999 (-12) false = 0x3E457902256482CB ∧ primary64 9999 6 false = 0x42029FE50E000000 ∧
      primary64 1 (-12) false = 0x3D719799812DEA11 ∧ primary64 1 (-1) false = 0x3FB999999999999A ∧
      primary64 5 (-1) false = 0x3FE0000000000000 ∧ primary64 999 (-3) false = 0x3FEFF7CED916872B ∧
      primary64 1234 (-6) false = 0x3F5437C5692B3CC5 ∧ primary64 1 (-6) false = 0x3EB0C6F7A0B5ED8D := by decide

/-- S-1: the secondary field 60.0. -/
theorem test_decodeSecondary :
    let r := decodeSecondary Build.ref (bitsOf [0, 0, 0, 0, 0, 0, 0xBF, 0x3F, 0x7D, 0x00]) .currentAC
    r.valid = true ∧ r.mant = 600 ∧ r.exp = -1 ∧ r.value = 0x404E000000000000 := by decide

/-- S-2: the same bits in a DC mode. -/
theorem test_decodeSecondary_gated :
    decodeSecondary Build.ref (bitsOf [0, 0, 0, 0, 0, 0, 0xBF, 0x3F, 0x7D, 0x00]) .currentDC = ⟨false, 0, 0, 0⟩ := by
  decide

/-- S-9: every point set. -/
theorem test_decodeSecondary_points :
    let r := decodeSecondary Build.ref (bitsOf [0, 0, 0, 0, 0, 0, 0xEF, 0xEF, 0xEF, 0x6F]) .voltageAC
    r.mant = 9999 ∧ r.exp = -6 ∧ r.value = 0x3F847A5B0FF10ECB := by decide

/-- S-10: digit 3 carries no flag. -/
theorem test_decodeSecondary_no_sign :
    let r := decodeSecondary Build.ref (bitsOf [0, 0, 0, 0, 0, 0, 0x06, 0x00, 0x00, 0x86]) .voltageAC
    r.mant = 1001 ∧ r.exp = 0 := by decide

/-! ### Witnesses: concrete states and operands that meet the hypotheses of each statement, clause by clause -/

/-- A configured block is a good state if what it holds lies in `n` bytes inside the window and is 0 from the cursor
on. -/
theorem safe_held (e cursor : Half) (h : List Byte) (n : Nat) (he : legalExp Build.ref e = true)
    (hc : cursor.toNat ≤ e.toNat) (hwf : Memory.wf (held h)) (hn : ∀ c ∈ held h, c.1 < n)
    (hwin : n ≤ nbytes e ∧ n ≤ physBytes Build.ref)
    (hz : ∀ p, p < 8 * n → cursor.toNat ≤ p → (held h).bit p = false) : Safe (block e cursor h) where
  accumulator := ⟨fun h => (nomatch h), fun _ => hc, fun h => (nomatch h), fun p hp _ => by
    by_cases hlt : p < 8 * n
    · exact hz p hlt hp
    · exact Memory.bit_of_bound (held h) n p hn (Nat.not_lt.mp hlt)⟩
  length := fun _ => (legalExp_iff Build.ref e).mp he
  padding := fun _ p hp _ =>
    Memory.bit_of_bound (held h) n p hn (Nat.le_trans (Nat.mul_le_mul_left 8 hwin.1) hp)
  store := ⟨hwf, fun c hm => Nat.lt_of_lt_of_le (hn c hm) hwin.2⟩

/-- Zero bits pushed. -/
theorem safe_block (e cursor : Half) (he : legalExp Build.ref e = true) (hc : cursor.toNat ≤ e.toNat) :
    Safe (block e cursor []) :=
  safe_held e cursor [] 0 he hc Memory.wf_nil (by decide) ⟨Nat.zero_le _, Nat.zero_le _⟩ (by simp)

/-- The bit 1 pushed. -/
theorem safe_block_one : Safe (block 93 1 [0x80]) :=
  safe_held 93 1 [0x80] 1 (by decide) (by decide) ⟨by decide, by decide⟩ (by decide) ⟨by decide, by decide⟩ (by decide)

/-- A whole frame with the voltage flag set. -/
theorem safe_block_voltage : Safe (block 93 93 [0, 0, 0, 0, 0, 0, 0, 0, 0, 0, 0x80]) :=
  safe_held 93 93 _ 11 (by decide) (by decide) ⟨by decide, by decide⟩ (by decide) ⟨by decide, by decide⟩ (by decide)

theorem witness_EncodeOfDecodeIsTheWord : ∃ w i, decode w = .command i := ⟨0x10000089, .configure 137, by decide⟩

theorem witness_LegalityIsWellEncoding :
    (∃ d rest, (given fresh 0x90000000 false).pending = d :: rest ∧ wellEncoded d.word = false) ∧
    (∃ d rest, (given (block 137 9 []) 0x10000089 false).pending = d :: rest ∧
      d.word.extractLsb 31 28 = 0x1#4 ∧ (block 137 9 []).cfg = true) :=
  ⟨⟨_, _, rfl, by decide⟩, ⟨_, _, rfl, by decide, rfl⟩⟩

theorem witness_DecoderAgreesWithOpcodeTable : (⟨"SIZE", 0x50000000, 0xFFFFFFFF⟩ : OpcodeRow) ∈ opcodeTable := by
  decide

theorem witness_StepRunsTheDecodedCommand :
    ∃ d rest i, (given fresh 0x50000000 false).pending = d :: rest ∧ decode d.word = .command i :=
  ⟨_, _, .size, rfl, by decide⟩

theorem witness_IdleBlockKeepsItsState : fresh.pending = [] := rfl

theorem witness_ResponseWordIsAsLaidOut :
    ∃ d rest, (given fresh 0x00000000 false).pending = d :: rest ∧ d.word.extractLsb 31 28 ≠ 0x3#4 ∧
      d.word.extractLsb 31 28 ≠ 0x4#4 ∧ d.word.extractLsb 31 28 ≠ 0x5#4 := ⟨_, _, rfl, by decide⟩

/-- One word for each clause, the window's edges among them: 104 bits for a frame of 93 (95_test_vectors.md A39 to
A41). -/
theorem witness_StatusIsTheFirstThatApplies :
    wellEncoded 0x30010000 = false ∧
    (wellEncoded 0x30000098 = true ∧ fresh.cfg = false ∧ (0x30000098 : Word).extractLsb 31 28 ≠ 0x0#4 ∧
      (0x30000098 : Word).extractLsb 31 28 ≠ 0x1#4) ∧
    (wellEncoded 0x1000005C = true ∧ (0x1000005C : Word).extractLsb 31 28 = 0x1#4 ∧ frameFit Build.ref 92 = false) ∧
    (wellEncoded 0x1000005D = true ∧ frameFit Build.ref 93 = true) ∧
    (wellEncoded 0x30000067 = true ∧ (0x30000067 : Word).extractLsb 31 28 = 0x3#4 ∧
      ¬ storeBits 93 ≤ ((0x30000067 : Word).extractLsb 15 0).toNat ∧
      storeBits 93 ≤ ((0x30000068 : Word).extractLsb 15 0).toNat) ∧
    (wellEncoded 0x40000060 = true ∧ (0x40000060 : Word).extractLsb 31 28 = 0x4#4 ∧
      ¬ storeBits 93 < ((0x40000060 : Word).extractLsb 15 0).toNat + 8 ∧
      storeBits 93 < ((0x40000061 : Word).extractLsb 15 0).toNat + 8) ∧
    (wellEncoded 0x00000000 = true ∧ (0x00000000 : Word).extractLsb 31 28 = 0x0#4) ∧
    (wellEncoded 0x80000000 = true ∧ (block 93 0 []).cfg = true ∧ (0x80000000 : Word).extractLsb 31 28 ≠ 0x1#4 ∧
      (0x80000000 : Word).extractLsb 31 28 ≠ 0x3#4 ∧ (0x80000000 : Word).extractLsb 31 28 ≠ 0x4#4) := by decide

theorem witness_RefusedCommandsHaveNoEffect :
    ∃ t r, step (given fresh 0x50000000 false) = .next t ∧ t.response = some r ∧ r.status ≠ .ok :=
  ⟨_, _, rfl, rfl, by decide⟩

theorem witness_UnconfiguredCommandsAnswerNocfg :
    fresh.cfg = false ∧ (Instr.size ≠ .nop ∧ ∀ e, Instr.size ≠ .configure e) ∧
      (∃ e, Instr.configure 0 = .configure e) := ⟨rfl, ⟨by decide, fun _ h => (nomatch h)⟩, ⟨0, rfl⟩⟩

/-- Lengths 0, 257 and 92 are refused, 93 and 256 accepted (95_test_vectors.md A4, A5, A38, A39, A42). -/
theorem witness_ConfigureCreatesTheAccumulator :
    (block 137 9 []).cfg = true ∧ fresh.cfg = false ∧ (0 : Half).toNat = 0 ∧
      fresh.build.maxFrameBits < (257 : Half).toNat ∧ frameFit fresh.build 92 = false ∧
      ((93 : Half).toNat ≤ fresh.build.maxFrameBits ∧ frameFit fresh.build 93 = true) ∧
      ((256 : Half).toNat ≤ fresh.build.maxFrameBits ∧ frameFit fresh.build 256 = true) := by decide

theorem witness_PushBitAppendsOrOverflows :
    fresh.cfg = false ∧ ((block 137 136 []).cfg = true ∧ (block 137 136 []).cursor ≠ (block 137 136 []).exp) ∧
      ((block 137 137 []).cfg = true ∧ (block 137 137 []).cursor = (block 137 137 []).exp) := by decide

theorem witness_BitAtReadsOneBit :
    fresh.cfg = false ∧ (block 137 9 []).cfg = true ∧ storeBits (block 137 9 []).exp ≤ (152 : Half).toNat ∧
      (151 : Half).toNat < storeBits (block 137 9 []).exp ∧ ZeroPastCursor (block 137 9 []) ∧
      (block 137 9 []).cursor.toNat ≤ (9 : Half).toNat :=
  ⟨rfl, rfl, by decide, by decide, fun p _ _ => Memory.bit_nil p, by decide⟩

theorem witness_ByteAtReadsEightBits :
    fresh.cfg = false ∧ (block 137 9 []).cfg = true ∧ storeBits (block 137 9 []).exp < (145 : Half).toNat + 8 ∧
      (144 : Half).toNat + 8 ≤ storeBits (block 137 9 []).exp ∧ ZeroPastCursor (block 137 9 []) ∧
      (block 137 9 []).cursor.toNat ≤ (2 : Half).toNat + 7 ∧ (136 : Half).toNat < (137 : Half).toNat :=
  ⟨rfl, rfl, by decide, by decide, fun p _ _ => Memory.bit_nil p, by decide, by decide⟩

theorem witness_SizeAnswersTheCursor :
    fresh.cfg = false ∧ (block 137 9 []).cfg = true ∧ OverflowOnlyWhenFull { block 137 137 [] with ovf := true } :=
  ⟨rfl, rfl, fun _ => rfl⟩

theorem witness_ResetClearsTheWindow : fresh.cfg = false ∧ (block 137 9 [0xB2]).cfg = true := by decide

theorem witness_ReadsAreIdempotent : ∃ t, exec (.byteAt 1) (block 137 9 [0xB2, 0x80]) = .next t := ⟨_, rfl⟩

theorem witness_ClkEdgePushesTheSampledBit :
    fresh.cfg = false ∧ (block 137 136 []).cfg = true ∧ (block 137 136 []).cursor ≠ (block 137 136 []).exp ∧
      (block 137 137 []).cursor = (block 137 137 []).exp := by decide

/-- A frame of the wrong length, one without a mode flag, and one with (the reference instance's byte 10). -/
theorem witness_EnEdgeDecodesDispatchesAndResets :
    fresh.cfg = false ∧ (block 137 136 []).cfg = true ∧ (block 137 136 []).cursor ≠ (block 137 136 []).exp ∧
      ((block 137 137 []).ovf = false ∧ (block 137 137 []).cursor = (block 137 137 []).exp ∧
        resolveMode (block 137 137 []).build (block 137 137 []).bitRead = none) ∧
      resolveMode (block 137 137 [0, 0, 0, 0, 0, 0, 0, 0, 0, 0, 0x88]).build
        (block 137 137 [0, 0, 0, 0, 0, 0, 0, 0, 0, 0, 0x88]).bitRead = some .voltageAC := by decide

/-- The frame of V-F5 (95_test_vectors.md), delivered with an EN_EDGE. -/
def acFrame : State :=
  given (block 137 137 [0x00, 0x3F, 0x6D, 0xDB, 0x06, 0x00, 0xBF, 0x3F, 0x7D, 0x00, 0x48, 0x20]) 0x80000000 false

/-- A step that emits a reading. -/
theorem acFrame_emits : ∃ t r, step acFrame = .next t ∧ r ∈ t.dispatch := by
  have h : (frameReading (deliver ⟨0x80000000, false⟩ [] acFrame)).isSome = true := by decide
  obtain ⟨r, hr⟩ := Option.isSome_iff_exists.mp h
  refine ⟨respond .ok 0 (accReset (dispatchReading (some r) (deliver ⟨0x80000000, false⟩ [] acFrame))), r, ?_, ?_⟩
  · rw [← hr]
    rfl
  · exact List.mem_singleton.mpr rfl

theorem witness_OneReadingPerAcceptedFrame : ∃ t, step acFrame = .next t ∧ t.dispatch ≠ [] := by
  obtain ⟨t, r, ht, hr⟩ := acFrame_emits
  exact ⟨t, ht, List.ne_nil_of_mem hr⟩

/-- Deliveries after a good state leave it one. -/
theorem safe_pending (s : State) (ds : List Delivery) (h : Safe s) : Safe { s with pending := ds } :=
  ⟨h.accumulator, h.length, h.padding, h.store⟩

/-- An accepted frame on one side, one without a mode flag on the other, and one of another length. -/
theorem witness_DiscardPathsLookAlike :
    let s₁ := given (block 93 93 [0, 0, 0, 0, 0, 0, 0, 0, 0, 0, 0x80]) 0x80000000 false
    let s₂ := given (block 93 93 []) 0x80000000 false
    let s₃ := given (block 93 92 []) 0x80000000 false
    (Safe s₁ ∧ Safe s₂ ∧ Safe s₃) ∧ (s₁.cfg = true ∧ s₂.cfg = true ∧ s₃.cfg = true) ∧
      (s₁.exp = s₂.exp ∧ s₁.exp = s₃.exp) ∧ (s₁.build = s₂.build ∧ s₁.build = s₃.build) ∧
      (s₁.pending = s₂.pending ∧ s₁.pending = s₃.pending) ∧ decode 0x80000000 = .command .enEdge ∧
      (∃ t₁ t₂ t₃, step s₁ = .next t₁ ∧ step s₂ = .next t₂ ∧ step s₃ = .next t₃) ∧
      resolveMode s₁.build s₁.bitRead ≠ none ∧ resolveMode s₂.build s₂.bitRead = none ∧ s₃.cursor ≠ s₃.exp :=
  ⟨⟨safe_pending _ _ safe_block_voltage, safe_pending _ _ (safe_block 93 93 (by decide) (by decide)),
      safe_pending _ _ (safe_block 93 92 (by decide) (by decide))⟩,
    ⟨rfl, rfl, rfl⟩, ⟨rfl, rfl⟩, ⟨rfl, rfl⟩, ⟨rfl, rfl⟩, by decide, ⟨_, _, _, rfl, rfl, rfl⟩, by decide, by decide,
    by decide⟩

/-- For any frame, so for one of 93 bits and for one of another length. -/
theorem witness_FrameLaw (bits : List Bool) :
    let s := { block 93 0 [] with pending := bits.map (fun v => ⟨0x70000000, v⟩) ++ [⟨0x80000000, false⟩] }
    Safe s ∧ s.cfg = true ∧ s.cursor = 0 :=
  ⟨safe_pending _ _ (safe_block 93 0 (by decide) (by decide)), rfl, rfl⟩

theorem witness_FrameLaw_lengths :
    (List.replicate 93 true).length = (block 93 0 []).exp.toNat ∧ ([] : List Bool).length ≠ (block 93 0 []).exp.toNat := by
  decide

/-- For any pushes, below capacity and above; a push at the window's last byte, position 96 of 104. -/
theorem witness_PushReadLaws (ds : List Delivery) :
    let s := { block 93 0 [] with pending := ds }
    Safe s ∧ s.cfg = true ∧ s.cursor = 0 ∧ (96 : Half).toNat + 8 ≤ storeBits s.exp :=
  ⟨safe_pending _ _ (safe_block 93 0 (by decide) (by decide)), rfl, rfl, (by decide : (96 : Half).toNat + 8 ≤ storeBits 93)⟩

theorem witness_CursorIsMonotone :
    CursorInCapacity (block 137 137 []) ∧ (∃ t, exec .clkEdge (block 137 137 []) = .next t) ∧
      Instr.clkEdge ≠ .reset ∧ Instr.clkEdge ≠ .enEdge ∧ (∀ e, Instr.clkEdge ≠ .configure e) ∧
      (block 137 137 []).cfg = true :=
  ⟨fun _ => by decide, ⟨_, rfl⟩, by decide, by decide, fun _ h => (nomatch h), rfl⟩

theorem witness_PinWrapperDeliversEdges :
    [clockDelivery true, enableDelivery true] ∈ pinWrapper ⟨true, false, true, false, true⟩ := by decide

/-- A full frame, one that is one bit short, and a shorter one. -/
theorem witness_SimultaneousEdgesInEitherOrder :
    (Safe (block 93 93 []) ∧ (block 93 93 []).cfg = true ∧ (block 93 93 []).ovf = false ∧
      (block 93 93 []).cursor = (block 93 93 []).exp) ∧
    (Safe (block 93 92 []) ∧ (block 93 92 []).cursor.toNat + 1 = (block 93 92 []).exp.toNat) ∧
    (Safe (block 93 91 []) ∧ (block 93 91 []).cursor.toNat + 1 < (block 93 91 []).exp.toNat) :=
  ⟨⟨safe_block 93 93 (by decide) (by decide), rfl, rfl, rfl⟩, ⟨safe_block 93 92 (by decide) (by decide), by decide⟩,
    ⟨safe_block 93 91 (by decide) (by decide), by decide⟩⟩

theorem witness_StepKeepsAccumulatorInvariants :
    AccumulatorInvariants (block 93 1 [0x80]) ∧ ∃ t, step (block 93 1 [0x80]) = .next t :=
  ⟨safe_block_one.accumulator, _, rfl⟩

theorem witness_StepKeepsSafe :
    Safe (given (block 93 1 [0x80]) 0x20000001 false) ∧
      ∃ t, step (given (block 93 1 [0x80]) 0x20000001 false) = .next t :=
  ⟨safe_pending _ _ safe_block_one, _, rfl⟩

theorem witness_OnlyConfigureWritesCfgAndExp :
    fresh.cfg = false ∧ (∃ t, step (given fresh 0x10000089 false) = .next t ∧ t.cfg = true) ∧
      (∃ t, step (given fresh 0x50000000 false) = .next t ∧ t.cfg = false) ∧ (block 137 9 []).cfg = true ∧
      (∃ t, step (given (block 137 9 []) 0x50000000 false) = .next t) ∧ decode 0x50000000 = .command .size ∧
      (∃ t r, step (given (block 137 9 []) 0x10000089 false) = .next t ∧ t.response = some r ∧ r.status ≠ .ok) :=
  ⟨rfl, ⟨_, rfl, by decide⟩, ⟨_, rfl, by decide⟩, rfl, ⟨_, rfl⟩, by decide, ⟨_, _, rfl, rfl, by decide⟩⟩

theorem witness_PowerOnStoreIsNeverObserved :
    fresh.cfg = false ∧ StoreWellFormed { fresh with store := [] } ∧
      StoreWellFormed { fresh with store := [(0, 0x5A), (32, 0x01)] } :=
  ⟨rfl, ⟨Memory.wf_nil, fun _ h => (nomatch h)⟩, ⟨⟨by decide, by decide⟩, by decide⟩⟩

theorem witness_ResetIsAsFreshlyConfigured : Safe (block 93 1 [0x80]) ∧ (block 93 1 [0x80]).cfg = true :=
  ⟨safe_block_one, rfl⟩

theorem witness_ByteReadIsMostSignificantFirst : 0 < 8 ∧ 7 < 8 := by decide

/-- A frame for each row of the truth table (95_test_vectors.md M1, M2, M4, M5, M7, M9, M11). -/
theorem witness_ModeTruthTable :
    let flags := fun c : Byte => let f := bitsOf [0, 0, 0, 0, 0, 0, 0, 0, 0, 0, c]
      [f Build.ref.offV, f Build.ref.offI, f Build.ref.offR, f Build.ref.offT, f Build.ref.offAC]
    flags 0x80 = [true, false, false, false, false] ∧ flags 0x88 = [true, false, false, false, true] ∧
      flags 0x40 = [false, true, false, false, false] ∧ flags 0x48 = [false, true, false, false, true] ∧
      flags 0x20 = [false, false, true, false, false] ∧ flags 0x10 = [false, false, false, true, false] ∧
      flags 0x08 = [false, false, false, false, true] := by decide

theorem witness_ScaleExponentTakesTheFirstFlag :
    let flags := fun c : Byte => let f := bitsOf [0, 0, 0, 0, 0, 0, 0, 0, 0, 0, 0, c]
      [f Build.ref.offX6, f Build.ref.offX3, f Build.ref.offXM3, f Build.ref.offXM6]
    flags 0xF0 = [true, true, true, true] ∧ flags 0x60 = [false, true, true, false] ∧
      flags 0x20 = [false, false, true, false] ∧ flags 0x10 = [false, false, false, true] ∧
      flags 0x00 = [false, false, false, false] := by decide

theorem witness_UnknownModeIsNeverEmitted : ∃ t r, step acFrame = .next t ∧ r ∈ t.dispatch := acFrame_emits

theorem witness_SegLookupFindsEveryEntry :
    (0xE6, .digit 4) ∈ Build.ref.segTable.entries ∧ ∀ e ∈ Build.ref.segTable.entries, e.1 ≠ 0x00 := by decide

theorem witness_PrimaryScan :
    segLookup Build.ref.segTable (memRead8 (bitsOf [0, 0x66, 0x4F]) Build.ref.offDig[1]) ≠ some .ol ∧
      segLookup Build.ref.segTable (memRead8 (bitsOf [0, 0x6D, 0x38]) Build.ref.offDig[1]) = some .ol := by decide

theorem witness_PrimaryIsScaledAndSigned : (scanPrimary Build.ref (bitsOf [0, 0x66, 0x4F, 0x5B, 0x06])).ovl = false := by
  decide

theorem witness_SecondaryFieldInACModesOnly :
    (Mode.voltageAC = .voltageAC ∨ Mode.voltageAC = .currentAC) ∧ Mode.resistance ≠ .voltageAC ∧
      Mode.resistance ≠ .currentAC := by decide

/-- Two frames that differ in a bit of no field, and two DC frames that differ in the secondary field (V-F26). -/
theorem witness_ReadingDependsOnItsFieldsOnly :
    (∀ p ∈ fieldPositions Build.ref, bitsOf [0x00, 0x66] p = bitsOf [0x80, 0x66] p) ∧
    (let f := bitsOf [0, 0x66, 0x4F, 0x5B, 0x06, 0, 0, 0, 0, 0, 0x80]
     let g := bitsOf [0, 0x66, 0x4F, 0x5B, 0x06, 0xFF, 0xFF, 0xFF, 0xFF, 0xFF, 0x80]
     (∀ p ∈ [80, 81, 82, 83, 84, 88, 89, 90, 91, 8, 16, 24, 32], f p = g p) ∧
       (∀ o ∈ [8, 16, 24, 32], ∀ k, k < 8 → f (o + k) = g (o + k)) ∧
       resolveMode Build.ref f = some .voltageDC) := by decide

theorem witness_EmittedReadingsFitTheRecord : ∃ t r, step acFrame = .next t ∧ r ∈ t.dispatch := acFrame_emits

theorem witness_ConversionRoundsToNearestEven :
    (9999 ≤ 9999 ∧ (-12 : Int) ≤ -12 ∧ (-12 : Int) ≤ 6) ∧ isFinite64 0x0000000000000000 = true := by decide

theorem witness_ConversionIsExactUpwardsAndNormal : (1 ≠ 0 ∧ 1 ≤ 9999) ∧ (-12 : Int) ≤ 6 ∧ (0 : Int) ≤ 6 := by decide

end Sys2Proof.Machine.Tests
end

section
/-! PROOFS. The scope statements (00_scope.md): what `FRAME_FIT` bounds (R8), and what a step runs (R3). -/

namespace Sys2Proof.Machine

/-! ### `FRAME_FIT` and the frame map -/

/-- `FRAME_FIT(E)` as 00_scope.md R8 words it: a bound on every offset parameter. -/
theorem frameFit_iff (b : Build) (e : Half) :
    frameFit b e = true ↔ (∀ o ∈ flagOffsets b, o < e.toNat) ∧ ∀ o ∈ codeOffsets b, o + 8 ≤ e.toNat := by
  simp only [frameFit, Bool.and_eq_true, List.all_eq_true, decide_eq_true_eq]

/-- The decoder reads a flag at its offset, and a code at the eight positions from its offset (30_encoding.md R70). -/
theorem mem_fieldPositions (b : Build) (p : Nat) :
    p ∈ fieldPositions b ↔ p ∈ flagOffsets b ∨ ∃ o ∈ codeOffsets b, ∃ k < 8, o + k = p := by
  simp only [fieldPositions, List.mem_append, List.mem_flatMap, List.mem_map, List.mem_range]

/-- The last of a code's eight positions decides whether the code lies in the frame. -/
theorem code_lt_iff (o n : Nat) : (∀ k < 8, o + k < n) ↔ o + 8 ≤ n := by
  constructor
  · intro h
    have hlast : o + 7 < n := h 7 (by decide)
    omega
  · intro h k hk
    omega

/-- Settles O15: the flags are bounded one by one, a code by the last of its eight positions. -/
theorem frameFitBoundsEveryField : Obligations.FrameFitBoundsEveryField := by
  unfold Obligations.FrameFitBoundsEveryField
  intro b e
  rw [frameFit_iff]
  constructor
  · rintro ⟨hflag, hcode⟩ p hp
    rcases (mem_fieldPositions b p).mp hp with hp | ⟨o, ho, k, hk, rfl⟩
    · exact hflag p hp
    · exact (code_lt_iff o _).mpr (hcode o ho) k hk
  · intro h
    constructor
    · exact fun o ho => h o ((mem_fieldPositions b o).mpr (.inl ho))
    · exact fun o ho => (code_lt_iff o _).mp fun k hk =>
        h (o + k) ((mem_fieldPositions b _).mpr (.inr ⟨o, ho, k, hk, rfl⟩))

/-! ### The step and the command it runs -/

/-- Settles O6: the step on a decoded command is `exec` after `deliver`, and `deliver` writes the four fields the
statement names. -/
theorem stepRunsTheDecodedCommand : Obligations.StepRunsTheDecodedCommand := by
  unfold Obligations.StepRunsTheDecodedCommand
  intro s d rest i hpending hdecode
  exact step_of_command s d rest i hpending hdecode

end Sys2Proof.Machine
end

section
/-! PROOFS. The state statements (10_state.md): the invariants of R28 and of the whole block, who writes which field of
`S` (R23, R24, R30), and that the storage at power-on is never observed (R27). -/

namespace Sys2Proof.Machine

/-! ### The five fields of `S` alone -/

theorem SameBlock.trans {s t u : State} (h : SameBlock s t) (h' : SameBlock t u) : SameBlock s u :=
  ⟨h'.cfg.trans h.cfg, h'.exp.trans h.exp, h'.cursor.trans h.cursor, h'.ovf.trans h.ovf, h'.store.trans h.store⟩

theorem sameBlock_respond (st : Status) (d : Half) (s : State) : SameBlock s (respond st d s) :=
  ⟨rfl, rfl, rfl, rfl, rfl⟩

theorem SameBlock.bitRead {s t : State} (h : SameBlock s t) : t.bitRead = s.bitRead := by
  funext p
  simp only [bitRead_def, h.store]

/-! ### What a command does to `S` -/

/-- What a command can do to the five fields of `S`, each with its guard: nothing, or, answered `OK`, one of the four
state primitives of 00_scope.md R12. -/
inductive BlockUpdate (i : Instr) (s t : State) : Prop where
  /-- No field is written. -/
  | kept (h : SameBlock s t)
  /-- An accepted CONFIGURE. -/
  | created (e : Half) (hi : i = .configure e) (hok : ∀ r, t.response = some r → r.status = .ok)
      (hcfg : s.cfg = false) (hlegal : legalExp s.build e = true) (h : SameBlock (create e s) t)
  /-- A push below capacity. -/
  | appended (v : Bool) (hi : i = .clkEdge ∨ i = .pushBit v) (hok : ∀ r, t.response = some r → r.status = .ok)
      (hcfg : s.cfg = true) (hcap : s.cursor ≠ s.exp) (h : SameBlock (append v s) t)
  /-- A push at capacity. -/
  | overflowed (hi : i = .clkEdge ∨ ∃ v, i = .pushBit v) (hok : ∀ r, t.response = some r → r.status = .ok)
      (hcfg : s.cfg = true) (hcap : s.cursor = s.exp) (h : SameBlock (setOverflow s) t)
  /-- RESET or EN_EDGE. -/
  | cleared (hi : i = .reset ∨ i = .enEdge) (hok : ∀ r, t.response = some r → r.status = .ok)
      (hcfg : s.cfg = true) (h : SameBlock (accReset s) t)

theorem status_of_respond (st : Status) (d : Half) (s : State) (r : Response)
    (h : (respond st d s).response = some r) : r.status = st := by
  cases h
  rfl

/-- EN_EDGE's last step clears the same block, whatever it dispatched before (41_frame_control.md R133). -/
theorem sameBlock_accReset_dispatchReading (r : Option Reading) (s : State) :
    SameBlock (accReset s) (accReset (dispatchReading r s)) := by
  constructor <;> simp

theorem Effect.blockUpdate {i : Instr} {s t : State} (h : Effect i s t) : BlockUpdate i s t := by
  cases h with
  | nocfg _ _ _ h => exact .kept (h ▸ sameBlock_respond _ _ s)
  | second _ _ _ h => exact .kept (h ▸ sameBlock_respond _ _ s)
  | badLength _ _ _ _ h => exact .kept (h ▸ sameBlock_respond _ _ s)
  | badBit _ _ _ _ h => exact .kept (h ▸ sameBlock_respond _ _ s)
  | badByte _ _ _ _ h => exact .kept (h ▸ sameBlock_respond _ _ s)
  | nop _ h => exact .kept (h ▸ sameBlock_respond _ _ s)
  | size _ _ h => exact .kept (h ▸ sameBlock_respond _ _ s)
  | bit _ _ _ _ h => exact .kept (h ▸ sameBlock_respond _ _ s)
  | byte _ _ _ _ h => exact .kept (h ▸ sameBlock_respond _ _ s)
  | create e hi hcfg hlegal h =>
    subst h
    exact .created e hi (status_of_respond _ _ _) hcfg hlegal (sameBlock_respond _ _ _)
  | append v hi hcfg hcap h =>
    subst h
    exact .appended v (hi.symm.imp_left And.left) (status_of_respond _ _ _) hcfg hcap (sameBlock_respond _ _ _)
  | overflow hi hcfg hcap h =>
    subst h
    exact .overflowed hi (status_of_respond _ _ _) hcfg hcap (sameBlock_respond _ _ _)
  | reset hi hcfg h =>
    subst h
    exact .cleared (.inl hi) (status_of_respond _ _ _) hcfg (sameBlock_respond _ _ _)
  | enEdge hi hcfg h =>
    subst h
    exact .cleared (.inr hi) (status_of_respond _ _ _) hcfg
      ((sameBlock_accReset_dispatchReading _ _).trans (sameBlock_respond _ _ _))

/-- Taking the command off the port writes no field of `S`. -/
theorem BlockUpdate.of_deliver {i : Instr} {s t : State} {d : Delivery} {rest : List Delivery}
    (h : BlockUpdate i (deliver d rest s) t) : BlockUpdate i s t := by
  cases h with
  | kept h => exact .kept { h with }
  | created e hi hok hcfg hlegal h => exact .created e hi hok hcfg hlegal { h with }
  | appended v hi hok hcfg hcap h => exact .appended v hi hok hcfg hcap { h with }
  | overflowed hi hok hcfg hcap h => exact .overflowed hi hok hcfg hcap { h with }
  | cleared hi hok hcfg h => exact .cleared hi hok hcfg { h with }

/-- A step writes a field of `S` only by the command it takes. -/
theorem step_blockUpdate (s t : State) (h : step s = .next t) :
    SameBlock s t ∨ ∃ d rest i, s.pending = d :: rest ∧ decode d.word = .command i ∧ BlockUpdate i s t := by
  cases step_cases s t h with
  | idle _ ht => exact .inl (ht ▸ ⟨rfl, rfl, rfl, rfl, rfl⟩)
  | illegal d rest _ _ _ ht => exact .inl (ht ▸ ⟨rfl, rfl, rfl, rfl, rfl⟩)
  | command d rest hp i hd he => exact .inr ⟨d, rest, i, hp, hd, (exec_inv i _ t he).blockUpdate.of_deliver⟩

theorem step_build (s t : State) (h : step s = .next t) : t.build = s.build := by
  cases step_cases s t h with
  | idle _ ht => rw [ht, idle_build]
  | illegal d rest _ _ _ ht => rw [ht, answerIllegal, respond_build, deliver_build]
  | command d rest _ i _ he => exact (exec_inv i _ t he).environment.1

/-! ### The accumulator invariants (10_state.md R28) -/

theorem SameBlock.accumulatorInvariants {s t : State} (hb : SameBlock s t) (h : AccumulatorInvariants s) :
    AccumulatorInvariants t := by
  simpa only [AccumulatorInvariants, UnconfiguredIsEmpty, CursorInCapacity, OverflowOnlyWhenFull, ZeroPastCursor,
    hb.cfg, hb.exp, hb.cursor, hb.ovf, hb.bitRead] using h

/-- A fresh accumulator has the invariants, because its window lies in the storage that CONFIGURE zeroed. -/
theorem accumulatorInvariants_create (e : Half) (s : State) (hlegal : legalExp s.build e = true) :
    AccumulatorInvariants (create e s) := by
  obtain ⟨_, hmax, _⟩ := (legalExp_iff s.build e).mp hlegal
  refine ⟨fun _ => ⟨rfl, rfl⟩, fun _ => Nat.zero_le _, fun h => (nomatch h), fun p _ hp => ?_⟩
  have hphys : p < physBits s.build := Nat.lt_of_lt_of_le hp (storeBits_le_physBits s.build e hmax)
  rw [create_bitRead, if_pos hphys]

/-- Only the position below the new cursor is written, and the guard keeps the cursor within the capacity. -/
theorem accumulatorInvariants_append (v : Bool) (s : State) (h : AccumulatorInvariants s) (hcfg : s.cfg = true)
    (hcap : s.cursor ≠ s.exp) : AccumulatorInvariants (append v s) := by
  obtain ⟨_, hcursor, hovf, hzero⟩ := h
  have hne : s.cursor.toNat ≠ s.exp.toNat := fun heq => hcap (BitVec.eq_of_toNat_eq heq)
  have hle := hcursor hcfg
  have hnext := toNat_cursor_add_one s hle hcap
  refine ⟨fun hno => ?_, fun _ => ?_, fun ho => absurd (hovf ho) hcap, fun p hp hwin => ?_⟩
  · simp [hcfg] at hno
  · rw [append_cursor, append_exp, hnext]
    omega
  · rw [append_cursor, hnext] at hp
    rw [append_bitRead, if_neg (by omega)]
    exact hzero p (by omega) hwin

theorem accumulatorInvariants_setOverflow (s : State) (h : AccumulatorInvariants s) (hcfg : s.cfg = true)
    (hcap : s.cursor = s.exp) : AccumulatorInvariants (setOverflow s) := by
  obtain ⟨_, hcursor, _, hzero⟩ := h
  refine ⟨fun hno => ?_, hcursor, fun _ => hcap, hzero⟩
  simp [hcfg] at hno

/-- The invariants hold after `AccReset()` whatever the accumulator held before. -/
theorem accumulatorInvariants_accReset (s : State) : AccumulatorInvariants (accReset s) := by
  refine ⟨fun _ => ⟨rfl, rfl⟩, fun _ => Nat.zero_le _, fun h => (nomatch h), fun p _ hp => ?_⟩
  rw [accReset_exp] at hp
  rw [accReset_bitRead, if_pos hp]

theorem BlockUpdate.accumulatorInvariants {i : Instr} {s t : State} (hu : BlockUpdate i s t)
    (h : AccumulatorInvariants s) : AccumulatorInvariants t := by
  cases hu with
  | kept hb => exact hb.accumulatorInvariants h
  | created e _ _ _ hlegal hb => exact hb.accumulatorInvariants (accumulatorInvariants_create e s hlegal)
  | appended v _ _ hcfg hcap hb => exact hb.accumulatorInvariants (accumulatorInvariants_append v s h hcfg hcap)
  | overflowed _ _ hcfg hcap hb => exact hb.accumulatorInvariants (accumulatorInvariants_setOverflow s h hcfg hcap)
  | cleared _ _ _ hb => exact hb.accumulatorInvariants (accumulatorInvariants_accReset s)

/-- Settles O31, by the cases of what a step does to `S`. -/
theorem stepKeepsAccumulatorInvariants : Obligations.StepKeepsAccumulatorInvariants := by
  unfold Obligations.StepKeepsAccumulatorInvariants
  intro s t h hstep
  rcases step_blockUpdate s t hstep with hb | ⟨_, _, _, _, _, hu⟩
  · exact hb.accumulatorInvariants h
  · exact hu.accumulatorInvariants h

/-! ### All invariants of the block -/

theorem SameBlock.safe {s t : State} (hb : SameBlock s t) (hbuild : t.build = s.build) (h : Safe s) : Safe t where
  accumulator := hb.accumulatorInvariants h.accumulator
  length := by simpa only [LegalLength, hb.cfg, hb.exp, hbuild] using h.length
  padding := by simpa only [ZeroPastWindow, hb.cfg, hb.exp, hb.bitRead, hbuild] using h.padding
  store := by simpa only [StoreWellFormed, hb.store, hbuild] using h.store

/-- Zeroing storage bytes keeps the storage well-formed, whichever they are. -/
theorem storeWellFormed_clearBelow (s t : State) (n : Nat) (h : StoreWellFormed s) (hbuild : t.build = s.build)
    (hstore : t.store = s.store.clearBelow n) : StoreWellFormed t := by
  obtain ⟨hwf, hbound⟩ := h
  rw [StoreWellFormed, hstore, hbuild]
  exact ⟨Memory.wf_clearBelow _ n hwf, fun c hc => hbound c (Memory.mem_of_mem_clearBelow _ n c hc).2⟩

/-- An appended bit lies in a byte of the preallocated storage, the cursor being below a legal length. -/
theorem storeWellFormed_append (v : Bool) (s : State) (h : StoreWellFormed s)
    (hcursor : s.cursor.toNat ≤ s.build.maxFrameBits) : StoreWellFormed (append v s) := by
  obtain ⟨hwf, hbound⟩ := h
  refine ⟨Memory.wf_orBit _ _ v hwf, fun c hc => ?_⟩
  rcases Memory.address_of_mem_writeByte _ _ _ c hc with haddr | hc
  · rw [haddr, append_build, physBytes]
    omega
  · exact hbound c hc

theorem safe_create (e : Half) (s : State) (h : Safe s) (hlegal : legalExp s.build e = true) : Safe (create e s) where
  accumulator := accumulatorInvariants_create e s hlegal
  length := fun _ => (legalExp_iff s.build e).mp hlegal
  padding := fun _ p _ hp => by
    rw [create_build] at hp
    rw [create_bitRead, if_pos hp]
  store := storeWellFormed_clearBelow s _ _ h.store rfl rfl

theorem safe_append (v : Bool) (s : State) (h : Safe s) (hcfg : s.cfg = true) (hcap : s.cursor ≠ s.exp) :
    Safe (append v s) := by
  have ⟨_, hcursor, _, _⟩ := h.accumulator
  have hle := hcursor hcfg
  have ⟨_, hmax, _⟩ := h.length hcfg
  have hwin := exp_add_seven_le_storeBits s.exp
  exact
    { accumulator := accumulatorInvariants_append v s h.accumulator hcfg hcap
      length := h.length
      padding := fun _ p hp hphys => by
        rw [append_exp] at hp
        rw [append_bitRead, if_neg (by omega)]
        exact h.padding hcfg p hp hphys
      store := storeWellFormed_append v s h.store (hle.trans hmax) }

theorem safe_setOverflow (s : State) (h : Safe s) (hcfg : s.cfg = true) (hcap : s.cursor = s.exp) :
    Safe (setOverflow s) :=
  ⟨accumulatorInvariants_setOverflow s h.accumulator hcfg hcap, h.length, h.padding, h.store⟩

theorem safe_accReset (s : State) (h : Safe s) : Safe (accReset s) where
  accumulator := accumulatorInvariants_accReset s
  length := h.length
  padding := fun hcfg p hp hphys => by
    rw [accReset_exp] at hp
    rw [accReset_bitRead, if_neg (Nat.not_lt.mpr hp)]
    exact h.padding hcfg p hp hphys
  store := storeWellFormed_clearBelow s _ _ h.store rfl rfl

theorem BlockUpdate.safe {i : Instr} {s t : State} (hu : BlockUpdate i s t) (hbuild : t.build = s.build)
    (h : Safe s) : Safe t := by
  cases hu with
  | kept hb => exact hb.safe hbuild h
  | created e _ _ _ hlegal hb => exact hb.safe hbuild (safe_create e s h hlegal)
  | appended v _ _ hcfg hcap hb => exact hb.safe hbuild (safe_append v s h hcfg hcap)
  | overflowed _ _ hcfg hcap hb => exact hb.safe hbuild (safe_setOverflow s h hcfg hcap)
  | cleared _ _ _ hb => exact hb.safe hbuild (safe_accReset s h)

/-- Settles O32, by the cases of what a step does to `S`; no step changes the parameters the bounds speak of. -/
theorem stepKeepsSafe : Obligations.StepKeepsSafe := by
  unfold Obligations.StepKeepsSafe
  intro s t h hstep
  have hbuild := step_build s t hstep
  rcases step_blockUpdate s t hstep with hb | ⟨_, _, _, _, _, hu⟩
  · exact hb.safe hbuild h
  · exact hu.safe hbuild h

/-! ### Who writes which field (10_state.md R23, R24, R30) -/

theorem BlockUpdate.cfg_exp_of_configured {i : Instr} {s t : State} (hu : BlockUpdate i s t) (hcfg : s.cfg = true) :
    t.cfg = true ∧ t.exp = s.exp := by
  cases hu with
  | kept hb => exact ⟨hb.cfg.trans hcfg, hb.exp⟩
  | created _ _ _ hno _ _ => simp [hcfg] at hno
  | appended _ _ _ _ _ hb => exact ⟨hb.cfg.trans hcfg, hb.exp⟩
  | overflowed _ _ _ _ hb => exact ⟨hb.cfg.trans hcfg, hb.exp⟩
  | cleared _ _ _ hb => exact ⟨hb.cfg.trans hcfg, hb.exp⟩

/-- An unconfigured block keeps every field of `S` or becomes configured by an accepted CONFIGURE. -/
theorem BlockUpdate.of_unconfigured {i : Instr} {s t : State} (hu : BlockUpdate i s t) (hcfg : s.cfg = false) :
    SameBlock s t ∨ ∃ e, i = .configure e ∧ legalExp s.build e = true ∧ t.cfg = true ∧ t.exp = e := by
  cases hu with
  | kept hb => exact .inl hb
  | created e hi _ _ hlegal hb => exact .inr ⟨e, hi, hlegal, hb.cfg, hb.exp⟩
  | appended _ _ _ hyes _ _ => simp [hcfg] at hyes
  | overflowed _ _ hyes _ _ => simp [hcfg] at hyes
  | cleared _ _ hyes _ => simp [hcfg] at hyes

theorem BlockUpdate.sameBlock_of_read {i : Instr} {s t : State} (hu : BlockUpdate i s t)
    (hi : i = .nop ∨ i = .size ∨ (∃ p, i = .bitAt p) ∨ ∃ p, i = .byteAt p) : SameBlock s t := by
  cases hu with
  | kept hb => exact hb
  | created e he => simp [he] at hi
  | appended v hv => rcases hv with rfl | rfl <;> simp at hi
  | overflowed hv => rcases hv with rfl | ⟨v, rfl⟩ <;> simp at hi
  | cleared hr => rcases hr with rfl | rfl <;> simp at hi

theorem BlockUpdate.sameBlock_of_refused {i : Instr} {s t : State} (hu : BlockUpdate i s t) (r : Response)
    (hr : t.response = some r) (hno : r.status ≠ .ok) : SameBlock s t := by
  cases hu with
  | kept hb => exact hb
  | created _ _ hok => exact absurd (hok r hr) hno
  | appended _ _ hok => exact absurd (hok r hr) hno
  | overflowed _ hok => exact absurd (hok r hr) hno
  | cleared _ hok => exact absurd (hok r hr) hno

/-- Settles O35: a step that takes no command keeps the five fields, and of the commands each clause holds by the
cases of what a command does to `S`. -/
theorem onlyConfigureWritesCfgAndExp : Obligations.OnlyConfigureWritesCfgAndExp := by
  unfold Obligations.OnlyConfigureWritesCfgAndExp
  intro s t hstep
  have hbuild := step_build s t hstep
  rcases step_blockUpdate s t hstep with hb | ⟨d, rest, i, hp, hd, hu⟩
  · refine ⟨fun hcfg => ⟨hb.cfg.trans hcfg, hb.exp⟩, hbuild, fun hno hyes => ?_, fun _ _ => hb,
      fun _ _ _ _ _ _ => hb, fun _ _ _ => hb⟩
    simp [hb.cfg, hno] at hyes
  · refine ⟨hu.cfg_exp_of_configured, hbuild, fun hno hyes => ?_, fun hno hno' => ?_,
      fun d' rest' i' hp' hd' hi => ?_, hu.sameBlock_of_refused⟩
    · rcases hu.of_unconfigured hno with hb | ⟨e, rfl, hlegal, _, hexp⟩
      · simp [hb.cfg, hno] at hyes
      · exact ⟨d, rest, e, hp, hd, hexp, (legalExp_iff s.build e).mp hlegal⟩
    · rcases hu.of_unconfigured hno with hb | ⟨e, _, _, hyes, _⟩
      · exact hb
      · simp [hno'] at hyes
    · obtain ⟨rfl, rfl⟩ := List.cons.inj (hp.symm.trans hp')
      obtain rfl := Verdict.command.inj (hd.symm.trans hd')
      exact hu.sameBlock_of_read hi

/-! ### Runs -/

theorem step_total (s : State) : ∃ t, step s = .next t := by
  cases hp : s.pending with
  | nil => exact ⟨_, step_of_pending_nil s hp⟩
  | cons d rest =>
    cases hd : decode d.word with
    | command i =>
      obtain ⟨t, ht, _⟩ := exec_effect i (deliver d rest s)
      exact ⟨t, (step_of_command s d rest i hp hd).trans ht⟩
    | illegal why => exact ⟨_, step_of_illegal s d rest why hp hd⟩

theorem runReadings_succ (n : Nat) (s t : State) (h : step s = .next t) :
    runReadings (n + 1) s = (runReadings n t).map fun r => (t.dispatch ++ r.1, r.2) := by
  simp only [runReadings, h]

theorem runReadings_total (n : Nat) (s : State) : ∃ rs t, runReadings n s = some (rs, t) := by
  induction n generalizing s with
  | zero => exact ⟨[], s, rfl⟩
  | succ n ih =>
    obtain ⟨u, hu⟩ := step_total s
    obtain ⟨rs, t, hrun⟩ := ih u
    exact ⟨u.dispatch ++ rs, t, by rw [runReadings_succ n s u hu, hrun, Option.map_some]⟩

/-! ### The storage at power-on (10_state.md R27) -/

/-- The state with other storage contents. -/
def State.withStore (m : Memory) (s : State) : State := { s with store := m }

@[simp] theorem withStore_cfg (m : Memory) (s : State) : (s.withStore m).cfg = s.cfg := rfl
@[simp] theorem withStore_build (m : Memory) (s : State) : (s.withStore m).build = s.build := rfl
@[simp] theorem withStore_pending (m : Memory) (s : State) : (s.withStore m).pending = s.pending := rfl
@[simp] theorem withStore_response (m : Memory) (s : State) : (s.withStore m).response = s.response := rfl
@[simp] theorem withStore_dispatch (m : Memory) (s : State) : (s.withStore m).dispatch = s.dispatch := rfl
@[simp] theorem withStore_store (m : Memory) (s : State) : (s.withStore m).store = m := rfl

@[simp] theorem Memory.clearBelow_nil (n : Nat) : Memory.clearBelow [] n = [] := rfl

/-- An accepted CONFIGURE erases whatever well-formed storage it finds: no listed byte lies past those it zeroes. -/
theorem create_withStore (e : Half) (m : Memory) (s : State) (h : StoreWellFormed (s.withStore m)) :
    create e (s.withStore m) = create e (s.withStore []) := by
  obtain ⟨hwf, hbound⟩ := h
  have hm : m.clearBelow (physBytes s.build) = [] :=
    Memory.clearBelow_eq_nil m (physBytes s.build) (physBytes s.build) hwf hbound fun p hp hlt => by omega
  simp only [create, State.withStore, hm, Memory.clearBelow_nil]

theorem exec_configure_of_legalExp (e : Half) (s : State) (hcfg : s.cfg = false) (hlegal : legalExp s.build e = true) :
    exec (.configure e) s = .next (respond .ok 0 (create e s)) := by simp [exec, execConfigure, hcfg, hlegal]

theorem exec_configure_of_not_legalExp (e : Half) (s : State) (hcfg : s.cfg = false)
    (hlegal : legalExp s.build e = false) : exec (.configure e) s = .next (respond .range 0 s) := by
  simp [exec, execConfigure, hcfg, hlegal]

/-- A command without configuration is answered the same for every storage and keeps it, or it is an accepted
CONFIGURE (40_accumulator.md R101, R102). -/
theorem exec_withStore_of_unconfigured (i : Instr) (s : State) (hcfg : s.cfg = false) :
    (∃ st, ∀ m, exec i (s.withStore m) = .next ((respond st 0 s).withStore m)) ∨
      ∃ e, ∀ m, exec i (s.withStore m) = .next (respond .ok 0 (create e (s.withStore m))) := by
  have hno : ∀ f m, (.next (whenConfigured f (s.withStore m)) : Host.Outcome State Fault Refusal) =
      .next ((respond .nocfg 0 s).withStore m) := fun f m =>
    congrArg Host.Outcome.next (whenConfigured_of_not_cfg f (s.withStore m) hcfg)
  cases i with
  | nop => exact .inl ⟨.ok, fun _ => rfl⟩
  | configure e =>
    cases hlegal : legalExp s.build e with
    | true => exact .inr ⟨e, fun m => exec_configure_of_legalExp e (s.withStore m) hcfg hlegal⟩
    | false => exact .inl ⟨.range, fun m => exec_configure_of_not_legalExp e (s.withStore m) hcfg hlegal⟩
  | pushBit v => exact .inl ⟨.nocfg, hno _⟩
  | bitAt p => exact .inl ⟨.nocfg, hno _⟩
  | byteAt p => exact .inl ⟨.nocfg, hno _⟩
  | size => exact .inl ⟨.nocfg, hno _⟩
  | reset => exact .inl ⟨.nocfg, hno _⟩
  | clkEdge => exact .inl ⟨.nocfg, hno _⟩
  | enEdge => exact .inl ⟨.nocfg, hno _⟩

/-- A step of an unconfigured block carries the storage along unread, or erases it. -/
theorem step_withStore_of_unconfigured (s : State) (hcfg : s.cfg = false) :
    (∃ u : State, u.cfg = false ∧ u.build = s.build ∧ ∀ m, step (s.withStore m) = .next (u.withStore m)) ∨
      ∃ u, ∀ m, StoreWellFormed (s.withStore m) → step (s.withStore m) = .next u := by
  cases hp : s.pending with
  | nil => exact .inl ⟨idle s, hcfg, rfl, fun m => step_of_pending_nil (s.withStore m) hp⟩
  | cons d rest =>
    cases hd : decode d.word with
    | illegal why =>
      exact .inl ⟨answerIllegal (deliver d rest s), hcfg, rfl, fun m =>
        step_of_illegal (s.withStore m) d rest why hp hd⟩
    | command i =>
      have hstep : ∀ m, step (s.withStore m) = exec i ((deliver d rest s).withStore m) := fun m =>
        step_of_command (s.withStore m) d rest i hp hd
      rcases exec_withStore_of_unconfigured i (deliver d rest s) hcfg with ⟨st, hexec⟩ | ⟨e, hexec⟩
      · exact .inl ⟨respond st 0 (deliver d rest s), hcfg, rfl, fun m => (hstep m).trans (hexec m)⟩
      · refine .inr ⟨respond .ok 0 (create e ((deliver d rest s).withStore [])), fun m hm => ?_⟩
        rw [hstep, hexec, create_withStore e m (deliver d rest s) hm]

/-- Settles O36, by induction on the steps: until a CONFIGURE is accepted both blocks carry their storage along
unread, and that CONFIGURE makes them equal. -/
theorem powerOnStoreIsNeverObserved : Obligations.PowerOnStoreIsNeverObserved := by
  unfold Obligations.PowerOnStoreIsNeverObserved
  intro n
  induction n with
  | zero =>
    intro s m₁ m₂ hcfg _ _
    refine ⟨[], s.withStore m₁, s.withStore m₂, rfl, rfl, rfl, rfl, fun hyes => ?_⟩
    simp [hcfg] at hyes
  | succ n ih =>
    intro s m₁ m₂ hcfg hm₁ hm₂
    rcases step_withStore_of_unconfigured s hcfg with ⟨u, hu, hbuild, hstep⟩ | ⟨u, hstep⟩
    · have hwf : ∀ m, StoreWellFormed (s.withStore m) → StoreWellFormed (u.withStore m) := fun m hm => by
        simpa only [StoreWellFormed, withStore_store, withStore_build, hbuild] using hm
      obtain ⟨rs, t₁, t₂, hrun₁, hrun₂, heq⟩ := ih u m₁ m₂ hu (hwf m₁ hm₁) (hwf m₂ hm₂)
      refine ⟨u.dispatch ++ rs, t₁, t₂, ?_, ?_, heq⟩
      · exact (runReadings_succ n _ _ (hstep m₁)).trans (congrArg _ hrun₁)
      · exact (runReadings_succ n _ _ (hstep m₂)).trans (congrArg _ hrun₂)
    · obtain ⟨rs, t, hrun⟩ := runReadings_total (n + 1) (s.withStore m₁)
      refine ⟨rs, t, t, hrun, ?_, rfl, rfl, fun _ => rfl⟩
      exact (runReadings_succ n _ u (hstep m₂ hm₂)).trans
        ((runReadings_succ n _ u (hstep m₁ hm₁)).symm.trans hrun)

end Sys2Proof.Machine
end

section
/-! PROOFS. The memory statements (20_memory.md): that a read answers the same again and leaves no trace (R48), the
byte packing (R41) and the byte read (R43). -/

namespace Sys2Proof.Machine

/-! ### Reads (R48) -/

/-- A read does not depend on the response of an earlier command, and writes its own over it (30_encoding.md R64). -/
theorem exec_respond_of_read {i : Instr} (st : Status) (d : Half) (s : State)
    (hi : i = .nop ∨ i = .size ∨ (∃ p, i = .bitAt p) ∨ ∃ p, i = .byteAt p) : exec i (respond st d s) = exec i s := by
  rcases hi with rfl | rfl | ⟨p, rfl⟩ | ⟨p, rfl⟩
  · rfl
  · rfl
  · rfl
  · rfl

/-- A read writes nothing but its response. -/
theorem Effect.eq_respond_of_read {i : Instr} {s t : State} (h : Effect i s t)
    (hi : i = .nop ∨ i = .size ∨ (∃ p, i = .bitAt p) ∨ ∃ p, i = .byteAt p) : ∃ st d, t = respond st d s := by
  cases h with
  | nocfg _ _ _ h => exact ⟨_, _, h⟩
  | second _ _ _ h => exact ⟨_, _, h⟩
  | badLength _ _ _ _ h => exact ⟨_, _, h⟩
  | badBit _ _ _ _ h => exact ⟨_, _, h⟩
  | badByte _ _ _ _ h => exact ⟨_, _, h⟩
  | nop _ h => exact ⟨_, _, h⟩
  | size _ _ h => exact ⟨_, _, h⟩
  | bit _ _ _ _ h => exact ⟨_, _, h⟩
  | byte _ _ _ _ h => exact ⟨_, _, h⟩
  | create e he => simp [he] at hi
  | append v hv => rcases hv with rfl | ⟨rfl, _⟩ <;> simp at hi
  | overflow hv => rcases hv with rfl | ⟨v, rfl⟩ <;> simp at hi
  | reset hr => simp [hr] at hi
  | enEdge he => simp [he] at hi

/-- Settles O21: a read changes the response alone, and a read's answer does not depend on that. -/
theorem readsAreIdempotent : Obligations.ReadsAreIdempotent := by
  unfold Obligations.ReadsAreIdempotent
  intro i s t hi hexec
  obtain ⟨st, d, rfl⟩ := (exec_inv i s t hexec).eq_respond_of_read hi
  exact ⟨(exec_respond_of_read st d s hi).trans hexec, sameBlock_respond st d s⟩

/-! ### The byte read (R43) -/

/-- Horner's rule: the weighted sum is the number whose bits are those of `f` from the last to the first. -/
theorem sum_weighted_bits (f : Nat → Bool) (n : Nat) :
    ((List.range (n + 1)).map fun k => (f k).toNat * 2 ^ (n - k)).sum =
      Nat.ofBits fun i : Fin (n + 1) => f (n - i) := by
  induction n with
  | zero => simp [Nat.ofBits_succ]
  | succ n ih =>
    have hdouble : ((List.range (n + 1)).map fun k => (f k).toNat * 2 ^ (n + 1 - k)) =
        (List.range (n + 1)).map fun k => 2 * ((f k).toNat * 2 ^ (n - k)) :=
      List.map_congr_left fun k hk => by
        rw [Nat.succ_sub (Nat.le_of_lt_succ (List.mem_range.mp hk)), pow_succ', Nat.mul_left_comm]
    have hhorner : (Nat.ofBits fun i : Fin (n + 2) => f (n + 1 - i)) =
        2 * (Nat.ofBits fun i : Fin (n + 1) => f (n - i)) + (f (n + 1)).toNat := by
      simp [Nat.ofBits_succ (n := n + 1), Function.comp_def]
    rw [List.range_succ, List.map_append, List.sum_append, hdouble, List.sum_map_mul_left, ih, hhorner]
    simp

theorem memRead8_toNat (bit : Nat → Bool) (p : Nat) :
    (memRead8 bit p).toNat = Nat.ofBits fun i : Fin 8 => bit (p + (7 - i)) := by
  simp only [memRead8, Nat.shiftLeft_eq, sum_weighted_bits (fun k => bit (p + k)) 7, BitVec.toNat_ofNat]
  exact Nat.mod_eq_of_lt (Nat.ofBits_lt_two_pow _)

theorem memRead8_getLsbD (bit : Nat → Bool) (p i : Nat) (hi : i < 8) :
    (memRead8 bit p).getLsbD i = bit (p + (7 - i)) := by
  rw [← BitVec.testBit_toNat, memRead8_toNat, Nat.testBit_ofBits_lt _ _ hi]

/-- Settles O39: the weighted sum needs no more than eight bits, so no bit of it is lost. -/
theorem byteReadIsMostSignificantFirst : Obligations.ByteReadIsMostSignificantFirst := by
  unfold Obligations.ByteReadIsMostSignificantFirst
  intro bit p
  refine ⟨(memRead8_toNat bit p).trans (sum_weighted_bits (fun k => bit (p + k)) 7).symm, fun k hk => ?_⟩
  have hback : 7 - (7 - k) = k := by omega
  rw [memRead8_getLsbD bit p (7 - k) (by omega), hback]

/-! ### The byte packing (R41) -/

/-- The eight positions from `8 * k` on are the bits of byte `k`, the last one its bit 0. -/
theorem Memory.bit_of_byte (m : Memory) (k i : Nat) (hi : i < 8) :
    m.bit (8 * k + (7 - i)) = (m.readByte k).getLsbD i := by
  have hbyte : (8 * k + (7 - i)) / 8 = k := by omega
  have hplace : 7 - (8 * k + (7 - i)) % 8 = i := by omega
  rw [Memory.bit, hbyte, hplace]

/-- Settles O38: the packing is `Memory.bit` itself, and the byte read at `8 * k` agrees with byte `k` bit by bit. -/
theorem alignedByteReadIsTheStorageByte : Obligations.AlignedByteReadIsTheStorageByte := by
  unfold Obligations.AlignedByteReadIsTheStorageByte
  intro s
  refine ⟨fun p => rfl, fun k => BitVec.eq_of_getLsbD_eq fun i hi => ?_⟩
  rw [memRead8_getLsbD _ _ _ hi, bitRead_def, Memory.bit_of_byte _ _ _ hi]

end Sys2Proof.Machine
end

section
/-! PROOFS. The encoding statements (30_encoding.md), first the command word: the decoder and the encoder undo each
other (R61, R62), the legal words (R63), the opcode table. -/

namespace Sys2Proof

/-! ### The decoder and the encoder (R61, R62) -/

/-- Decoding reads each field where encoding put it; PUSH_BIT's operand has only its bit 0. -/
theorem decode_encode (i : Instr) : decode (encode i) = .command i := by
  cases i with
  | pushBit v => cases v <;> rfl
  | _ => simp [decode, decodeBare, opcode, operand]

theorem decodeBare_eq_command {opnd : Half} {i j : Instr} (h : decodeBare opnd i = .command j) :
    i = j ∧ opnd = 0 := by
  unfold decodeBare at h
  split at h
  · exact ⟨Verdict.command.inj h, ‹_›⟩
  · cases h

/-- An operand field whose bits above bit 0 are 0 is PUSH_BIT's operand (30_encoding.md R62). -/
theorem eq_operand_pushBit (opnd : Half) (h : opnd.extractLsb' 1 15 = 0) :
    opnd = operand (.pushBit (opnd.getLsbD 0)) := by
  refine BitVec.eq_of_getLsbD_eq fun k hk => ?_
  cases k with
  | zero => simp [operand]
  | succ k =>
    have hbit := congrArg (·.getLsbD k) h
    simpa [operand, BitVec.getLsbD_ofBool, Nat.add_comm 1 k, Nat.lt_of_succ_lt_succ hk, hk] using hbit

/-- A word that decodes has the fields of the command it decodes to. -/
theorem fields_of_decode (w : Word) (i : Instr) (h : decode w = .command i) :
    opField w = opcode i ∧ rsvField w = 0 ∧ opndField w = operand i := by
  unfold decode at h
  split at h
  · cases h
  · rename_i hrsv
    refine and_left_comm.mpr ⟨not_not.mp hrsv, ?_⟩
    split at h
    case h_1 hop | h_6 hop | h_7 hop | h_8 hop | h_9 hop =>
      obtain ⟨rfl, hopnd⟩ := decodeBare_eq_command h
      exact ⟨BitVec.eq_of_toNat_eq hop, hopnd⟩
    case h_2 hop | h_4 hop | h_5 hop =>
      cases h
      exact ⟨BitVec.eq_of_toNat_eq hop, rfl⟩
    case h_3 hop =>
      split at h
      · cases h
        exact ⟨BitVec.eq_of_toNat_eq hop, eq_operand_pushBit _ ‹_›⟩
      · cases h
    case h_10 => cases h

theorem encode_of_decode (w : Word) (i : Instr) (h : decode w = .command i) : encode i = w := by
  obtain ⟨hop, hrsv, hopnd⟩ := fields_of_decode w i h
  rw [word_eq_fields w, hop, hrsv, hopnd]
  rfl

theorem decode_eq_command_iff (w : Word) (i : Instr) : decode w = .command i ↔ w = encode i :=
  ⟨fun h => (encode_of_decode w i h).symm, fun h => h ▸ decode_encode i⟩

/-- Settles O1, by the fields of the command's word. -/
theorem decodeOfEncodeIsTheCommand : Obligations.DecodeOfEncodeIsTheCommand := by
  unfold Obligations.DecodeOfEncodeIsTheCommand
  exact decode_encode

/-- Settles O2: the three fields of the word are those of the command, and they are all of the word. -/
theorem encodeOfDecodeIsTheWord : Obligations.EncodeOfDecodeIsTheWord := by
  unfold Obligations.EncodeOfDecodeIsTheWord
  exact encode_of_decode

/-- Settles O5: each sample is the word of its command, the last one excepted, whose operation is reserved. -/
theorem sampleWordsDecode : Obligations.SampleWordsDecode := by
  unfold Obligations.SampleWordsDecode
  exact ⟨decode_encode .nop, decode_encode (.configure 137), decode_encode (.pushBit true), decode_encode (.bitAt 151),
    decode_encode (.byteAt 144), decode_encode .size, decode_encode .reset, decode_encode .clkEdge,
    decode_encode .enEdge, rfl⟩

/-! ### The legal words (R63) -/

theorem wellEncoded_iff (w : Word) :
    wellEncoded w = true ↔
      opField w ≤ 0x8#4 ∧ rsvField w = 0 ∧ opndField w &&& mustBeZero (opField w) = 0 := by
  simp [wellEncoded_eq_fields, and_assoc]

theorem wellEncoded_of_encode (i : Instr) : wellEncoded (encode i) = true := by
  cases i with
  | nop => exact Laws.WellEncodedWords.nop
  | configure e => exact Laws.WellEncodedWords.configure e
  | pushBit v => exact Laws.WellEncodedWords.pushBit v
  | bitAt p => exact Laws.WellEncodedWords.bitAt p
  | byteAt p => exact Laws.WellEncodedWords.byteAt p
  | size => exact Laws.WellEncodedWords.size
  | reset => exact Laws.WellEncodedWords.reset
  | clkEdge => exact Laws.WellEncodedWords.clkEdge
  | enEdge => exact Laws.WellEncodedWords.enEdge

theorem opcode_cases (op : BitVec 4) (h : op ≤ 0x8#4) :
    op = 0 ∨ op = 1 ∨ op = 2 ∨ op = 3 ∨ op = 4 ∨ op = 5 ∨ op = 6 ∨ op = 7 ∨ op = 8 := by
  revert op
  decide

/-- A legal operation with its must-be-zero bits at 0 is that of a command, with this operand (30_encoding.md R62). -/
theorem exists_instr_of_fields (op : BitVec 4) (opnd : Half) (hop : op ≤ 0x8#4) (hz : opnd &&& mustBeZero op = 0) :
    ∃ i, opcode i = op ∧ operand i = opnd := by
  have hbare : opnd &&& 0xFFFF#16 = 0 → (0 : Half) = opnd := fun h =>
    h.symm.trans BitVec.and_allOnes
  have hpush : opnd &&& 0xFFFE#16 = 0 → opnd.extractLsb' 1 15 = 0 := fun h => by
    have hhigh := congrArg (BitVec.extractLsb' 1 15) h
    rw [BitVec.extractLsb'_and] at hhigh
    exact BitVec.and_allOnes.symm.trans hhigh
  rcases opcode_cases op hop with rfl | rfl | rfl | rfl | rfl | rfl | rfl | rfl | rfl
  · exact ⟨.nop, rfl, hbare hz⟩
  · exact ⟨.configure opnd, rfl, rfl⟩
  · exact ⟨.pushBit (opnd.getLsbD 0), rfl, (eq_operand_pushBit opnd (hpush hz)).symm⟩
  · exact ⟨.bitAt opnd, rfl, rfl⟩
  · exact ⟨.byteAt opnd, rfl, rfl⟩
  · exact ⟨.size, rfl, hbare hz⟩
  · exact ⟨.reset, rfl, hbare hz⟩
  · exact ⟨.clkEdge, rfl, hbare hz⟩
  · exact ⟨.enEdge, rfl, hbare hz⟩

theorem exists_decode_iff_wellEncoded (w : Word) : (∃ i, decode w = .command i) ↔ wellEncoded w = true := by
  constructor
  · rintro ⟨i, h⟩
    rw [← encode_of_decode w i h]
    exact wellEncoded_of_encode i
  · intro h
    obtain ⟨hop, hrsv, hz⟩ := (wellEncoded_iff w).mp h
    obtain ⟨i, hi, hi'⟩ := exists_instr_of_fields (opField w) (opndField w) hop hz
    refine ⟨i, (decode_eq_command_iff w i).mpr ?_⟩
    rw [word_eq_fields w, hrsv, ← hi, ← hi']
    rfl

/-! ### The opcode table (R62) -/

theorem append_eq_append_iff {m n : Nat} (a a' : BitVec m) (b b' : BitVec n) :
    a ++ b = a' ++ b' ↔ a = a' ∧ b = b' := by
  constructor
  · intro h
    exact ⟨by simpa only [BitVec.extractLsb'_append_eq_left] using congrArg (BitVec.extractLsb' n m) h,
      by simpa only [BitVec.extractLsb'_append_eq_right] using congrArg (BitVec.extractLsb' 0 n) h⟩
  · rintro ⟨rfl, rfl⟩
    rfl

/-- What a row whose mask covers `OP`, `RSV` and the operand bits `c` asks of a word's fields. -/
theorem and_mask_eq_iff (w : Word) (op : BitVec 4) (c : Half) :
    w &&& (0xF#4 ++ (0xFFF#12 ++ c)) = op ++ (0#12 ++ 0#16) ↔
      opField w = op ∧ rsvField w = 0 ∧ opndField w &&& c = 0 := by
  have hop : opField w &&& 0xF#4 = opField w := BitVec.and_allOnes
  have hrsv : rsvField w &&& 0xFFF#12 = rsvField w := BitVec.and_allOnes
  have hfields : w &&& (0xF#4 ++ (0xFFF#12 ++ c)) = opField w ++ (rsvField w ++ (opndField w &&& c)) := by
    conv_lhs => rw [word_eq_fields w]
    rw [BitVec.and_append, BitVec.and_append, hop, hrsv]
  rw [hfields, append_eq_append_iff, append_eq_append_iff]
  rfl

/-- A row's mask covers `OP`, `RSV` and the must-be-zero operand bits; its pattern is an operation code and zeros. -/
theorem row_fields : ∀ row ∈ opcodeTable,
    opField row.pattern ≤ 0x8#4 ∧ row.mask = 0xF#4 ++ (0xFFF#12 ++ mustBeZero (opField row.pattern)) ∧
      row.pattern = opField row.pattern ++ (0#12 ++ 0#16) := by decide

/-- A row names by its mnemonic the commands it names by its operation code. -/
theorem row_mnemonic_iff (i : Instr) : ∀ row ∈ opcodeTable,
    mnemonic i = row.mnemonic ↔ opcode i = opField row.pattern := by
  cases i <;> (simp only [mnemonic, opcode]; decide)

/-- Settles O4: a row's match is the well-encoding check with the row's operation, and that is decoding to a command
of the operation. -/
theorem decoderAgreesWithOpcodeTable : Obligations.DecoderAgreesWithOpcodeTable := by
  unfold Obligations.DecoderAgreesWithOpcodeTable
  intro row hrow w
  obtain ⟨hle, hmask, hpattern⟩ := row_fields row hrow
  have hmnemonic := fun i => row_mnemonic_iff i row hrow
  generalize opField row.pattern = op at hle hmask hpattern hmnemonic
  simp only [hmask, hpattern, hmnemonic]
  refine (and_mask_eq_iff w op (mustBeZero op)).trans ⟨?_, ?_⟩
  · rintro ⟨rfl, hrsv, hz⟩
    obtain ⟨i, hi⟩ := (exists_decode_iff_wellEncoded w).mpr ((wellEncoded_iff w).mpr ⟨hle, hrsv, hz⟩)
    exact ⟨i, hi, (fields_of_decode w i hi).1.symm⟩
  · rintro ⟨i, hi, rfl⟩
    obtain ⟨hop, _, _⟩ := fields_of_decode w i hi
    obtain ⟨_, hrsv, hz⟩ := (wellEncoded_iff w).mp ((exists_decode_iff_wellEncoded w).mp ⟨i, hi⟩)
    exact ⟨hop, hrsv, hop ▸ hz⟩

end Sys2Proof
end

section
/-! PROOFS. The encoding statements, second the answer to a command: which words are answered `ILLEGAL`
(30_encoding.md R63), the response word (R64), and the order of the statuses (R65, 60_exceptions.md R224). -/

namespace Sys2Proof.Machine

/-! ### The status of a command (R65) -/

/-- The status a command is answered with, by the first cause that applies (30_encoding.md R65). -/
def firstStatus (s : State) : Instr → Status
  | .nop => .ok
  | .configure e => if s.cfg then .illegal else if legalExp s.build e then .ok else .range
  | .bitAt p => if s.cfg then (if storeBits s.exp ≤ p.toNat then .range else .ok) else .nocfg
  | .byteAt p => if s.cfg then (if storeBits s.exp < p.toNat + 8 then .range else .ok) else .nocfg
  | .pushBit _ | .size | .reset | .clkEdge | .enEdge => if s.cfg then .ok else .nocfg

theorem eq_nop_of_opcode (i : Instr) (h : opcode i = 0x0#4) : i = .nop := by
  cases i with
  | nop => rfl
  | _ => simp [opcode] at h

theorem exists_configure_of_opcode (i : Instr) (h : opcode i = 0x1#4) : ∃ e, i = .configure e := by
  cases i with
  | configure e => exact ⟨e, rfl⟩
  | _ => simp [opcode] at h

theorem exists_bitAt_of_opcode (i : Instr) (h : opcode i = 0x3#4) : ∃ p, i = .bitAt p := by
  cases i with
  | bitAt p => exact ⟨p, rfl⟩
  | _ => simp [opcode] at h

theorem exists_byteAt_of_opcode (i : Instr) (h : opcode i = 0x4#4) : ∃ p, i = .byteAt p := by
  cases i with
  | byteAt p => exact ⟨p, rfl⟩
  | _ => simp [opcode] at h

theorem firstStatus_of_unconfigured (s : State) (i : Instr) (hcfg : s.cfg = false) (hnop : opcode i ≠ 0x0#4)
    (hconfigure : opcode i ≠ 0x1#4) : firstStatus s i = .nocfg := by
  cases i with
  | nop => exact absurd rfl hnop
  | configure e => exact absurd rfl hconfigure
  | _ => simp [firstStatus, hcfg]

theorem firstStatus_of_configured (s : State) (i : Instr) (hcfg : s.cfg = true) (hconfigure : opcode i ≠ 0x1#4)
    (hbit : opcode i ≠ 0x3#4) (hbyte : opcode i ≠ 0x4#4) : firstStatus s i = .ok := by
  cases i with
  | configure e => exact absurd rfl hconfigure
  | bitAt p => exact absurd rfl hbit
  | byteAt p => exact absurd rfl hbyte
  | _ => simp [firstStatus, hcfg]

/-- Of the lengths CONFIGURE refuses, each of R102's three checks is one reason. -/
theorem firstStatus_configure (s : State) (e : Half) (hcfg : s.cfg = false) :
    firstStatus s (.configure e) =
      if e.toNat = 0 ∨ s.build.maxFrameBits < e.toNat ∨ frameFit s.build e = false then .range else .ok := by
  have hlegal : legalExp s.build e = true ↔
      ¬ (e.toNat = 0 ∨ s.build.maxFrameBits < e.toNat ∨ frameFit s.build e = false) := by
    rw [legalExp_iff, Nat.one_le_iff_ne_zero]
    simp
  simp only [firstStatus, hcfg, hlegal, Bool.false_eq_true, if_false, ite_not]

theorem firstStatus_eq_illegal_iff (s : State) (i : Instr) :
    firstStatus s i = .illegal ↔ opcode i = 0x1#4 ∧ s.cfg = true := by
  cases hcfg : s.cfg with
  | true => cases i <;> simp [firstStatus, opcode, hcfg, ite_eq_iff]
  | false => cases i <;> simp [firstStatus, opcode, hcfg, ite_eq_iff]

/-! ### The answer to a command -/

/-- The commands with a result (30_encoding.md R64). -/
def HasResult (i : Instr) : Prop := i = .size ∨ (∃ p, i = .bitAt p) ∨ ∃ p, i = .byteAt p

theorem Effect.response {i : Instr} {s t : State} (h : Effect i s t) :
    ∃ data, t.response = some ⟨firstStatus s i, t.ovf, data⟩ ∧
      (data = 0 ∨ (firstStatus s i = .ok ∧ HasResult i)) := by
  cases h with
  | nocfg hnop hconfigure hcfg h =>
    have hst := firstStatus_of_unconfigured s i hcfg (fun ho => hnop (eq_nop_of_opcode i ho))
      fun ho => (exists_configure_of_opcode i ho).elim hconfigure
    exact ⟨0, by simp [h, hst], .inl rfl⟩
  | second e hi hcfg h => exact ⟨0, by simp [h, hi, firstStatus, hcfg], .inl rfl⟩
  | badLength e hi hcfg hlegal h => exact ⟨0, by simp [h, hi, firstStatus, hcfg, hlegal], .inl rfl⟩
  | badBit p hi hcfg hp h => exact ⟨0, by simp [h, hi, firstStatus, hcfg, hp], .inl rfl⟩
  | badByte p hi hcfg hp h => exact ⟨0, by simp [h, hi, firstStatus, hcfg, hp], .inl rfl⟩
  | nop hi h => exact ⟨0, by simp [h, hi, firstStatus], .inl rfl⟩
  | size hi hcfg h =>
    have hst : firstStatus s i = .ok := by simp [hi, firstStatus, hcfg]
    exact ⟨_, by rw [h, hst]; rfl, .inr ⟨hst, .inl hi⟩⟩
  | bit p hi hcfg hp h =>
    have hst : firstStatus s i = .ok := by simp [hi, firstStatus, hcfg, hp]
    exact ⟨_, by rw [h, hst]; rfl, .inr ⟨hst, .inr (.inl ⟨p, hi⟩)⟩⟩
  | byte p hi hcfg hp h =>
    have hst : firstStatus s i = .ok := by simp [hi, firstStatus, hcfg, hp]
    exact ⟨_, by rw [h, hst]; rfl, .inr ⟨hst, .inr (.inr ⟨p, hi⟩)⟩⟩
  | create e hi hcfg hlegal h => exact ⟨0, by simp [h, hi, firstStatus, hcfg, hlegal], .inl rfl⟩
  | append v hi hcfg hcap h =>
    have hst : firstStatus s i = .ok := by rcases hi with rfl | ⟨rfl, _⟩ <;> simp [firstStatus, hcfg]
    exact ⟨0, by simp [h, hst], .inl rfl⟩
  | overflow hi hcfg hcap h =>
    have hst : firstStatus s i = .ok := by rcases hi with rfl | ⟨v, rfl⟩ <;> simp [firstStatus, hcfg]
    exact ⟨0, by simp [h, hst], .inl rfl⟩
  | reset hi hcfg h => exact ⟨0, by simp [h, hi, firstStatus, hcfg], .inl rfl⟩
  | enEdge hi hcfg h => exact ⟨0, by simp [h, hi, firstStatus, hcfg], .inl rfl⟩

/-- How a delivered word is answered: `ILLEGAL` and nothing else if it is not well-encoded, and by its command if it
is. -/
inductive WordAnswer (s : State) (w : Word) (t : State) (r : Response) : Prop where
  | illegal (hw : wellEncoded w = false) (hst : r.status = .illegal) (hdata : r.data = 0) (hb : SameBlock s t)
      (hdispatch : t.dispatch = [])
  | command (i : Instr) (hw : w = encode i) (hst : r.status = firstStatus s i)
      (hdata : r.data = 0 ∨ (r.status = .ok ∧ HasResult i))

theorem step_answers (s : State) (d : Delivery) (rest : List Delivery) (hp : s.pending = d :: rest) :
    ∃ t r, step s = .next t ∧ t.response = some r ∧ r.ovf = t.ovf ∧ WordAnswer s d.word t r := by
  cases hd : decode d.word with
  | illegal why =>
    have hw : wellEncoded d.word = false := by
      rw [← Bool.not_eq_true, ← exists_decode_iff_wellEncoded, hd]
      simp
    exact ⟨_, _, step_of_illegal s d rest why hp hd, rfl, rfl, .illegal hw rfl rfl ⟨rfl, rfl, rfl, rfl, rfl⟩ rfl⟩
  | command i =>
    obtain ⟨t, ht, he⟩ := exec_effect i (deliver d rest s)
    obtain ⟨data, hr, hdata⟩ := he.response
    exact ⟨t, _, (step_of_command s d rest i hp hd).trans ht, hr, rfl,
      .command i (encode_of_decode d.word i hd).symm rfl hdata⟩

/-! ### The statements (R63 to R65) -/

theorem extractLsb_op_encode (i : Instr) : (encode i).extractLsb 31 28 = opcode i := opField_encode i

theorem extractLsb_opnd_encode (i : Instr) : (encode i).extractLsb 15 0 = operand i := opndField_encode i

/-- Settles O3: the decoder's checks are the well-encoding check, and of the commands only a second CONFIGURE is
answered `ILLEGAL`. -/
theorem legalityIsWellEncoding : Obligations.LegalityIsWellEncoding := by
  unfold Obligations.LegalityIsWellEncoding
  refine ⟨fun w => (exists_decode_iff_wellEncoded w).trans (wellEncoded_iff w), fun s d rest hp => ?_⟩
  obtain ⟨t, r, ht, hr, _, ha⟩ := step_answers s d rest hp
  refine ⟨t, r, ht, hr, ?_⟩
  cases ha with
  | illegal hw hst _ hb hdispatch => exact ⟨⟨fun _ => .inl hw, fun _ => hst⟩, fun _ => ⟨hb, hdispatch⟩⟩
  | command i hw hst _ =>
    rw [hw, hst, firstStatus_eq_illegal_iff, wellEncoded_of_encode, extractLsb_op_encode]
    simp

/-- Settles O10: each clause is the first status of the commands with its operation. -/
theorem statusIsTheFirstThatApplies : Obligations.StatusIsTheFirstThatApplies := by
  unfold Obligations.StatusIsTheFirstThatApplies
  intro s d rest hp
  obtain ⟨t, r, ht, hr, _, ha⟩ := step_answers s d rest hp
  refine ⟨t, r, ht, hr, ?_⟩
  cases ha with
  | illegal hw hst _ _ _ => simp [hw, hst]
  | command i hw hst _ =>
    simp only [hw, hst, extractLsb_op_encode, extractLsb_opnd_encode, wellEncoded_of_encode, forall_const]
    refine ⟨fun h => ?_, firstStatus_of_unconfigured s i, fun hcfg hop => ?_, fun hcfg hop => ?_, fun hcfg hop => ?_,
      fun hop => ?_, firstStatus_of_configured s i⟩
    · exact (firstStatus_eq_illegal_iff s i).mpr (h.resolve_left (by simp))
    · obtain ⟨e, rfl⟩ := exists_configure_of_opcode i hop
      exact firstStatus_configure s e hcfg
    · obtain ⟨p, rfl⟩ := exists_bitAt_of_opcode i hop
      exact if_pos hcfg
    · obtain ⟨p, rfl⟩ := exists_byteAt_of_opcode i hop
      exact if_pos hcfg
    · rw [eq_nop_of_opcode i hop]
      rfl

/-! ### The response word (R64) -/

theorem Response.word_status (r : Response) : r.word.extractLsb' 30 2 = r.status.code :=
  BitVec.extractLsb'_append_eq_left

theorem Response.word_reserved (r : Response) : r.word.extractLsb' 17 13 = 0 :=
  (BitVec.extractLsb'_append_eq_of_add_le (by omega)).trans BitVec.extractLsb'_append_eq_left

theorem Response.word_ovf (r : Response) : r.word.extractLsb' 16 1 = BitVec.ofBool r.ovf := by
  simp only [Response.word]
  rw [BitVec.extractLsb'_append_eq_of_add_le (by omega), BitVec.extractLsb'_append_eq_of_add_le (by omega),
    BitVec.extractLsb'_append_eq_left]

theorem Response.word_data (r : Response) : r.word.extractLsb' 0 16 = r.data := by
  simp only [Response.word]
  rw [BitVec.extractLsb'_append_eq_of_add_le (by omega), BitVec.extractLsb'_append_eq_of_add_le (by omega),
    BitVec.extractLsb'_append_eq_right]

/-- A flag is a field of one bit. -/
theorem getLsbD_of_extractLsb' {w : Nat} (x : BitVec w) (k : Nat) (v : Bool)
    (h : x.extractLsb' k 1 = BitVec.ofBool v) : x.getLsbD k = v := by
  have hbit := congrArg (·.getLsbD 0) h
  simpa using hbit

/-- The three operations with a result are 3, 4 and 5. -/
theorem not_hasResult (i : Instr) (hbit : opcode i ≠ 0x3#4) (hbyte : opcode i ≠ 0x4#4) (hsize : opcode i ≠ 0x5#4) :
    ¬ HasResult i := by
  rintro (rfl | ⟨p, rfl⟩ | ⟨p, rfl⟩)
  · exact hsize rfl
  · exact hbit rfl
  · exact hbyte rfl

/-- Settles O9: the fields of the word, and what every delivered word is answered. -/
theorem responseWordIsAsLaidOut : Obligations.ResponseWordIsAsLaidOut := by
  unfold Obligations.ResponseWordIsAsLaidOut
  refine ⟨fun r => ⟨?_, r.word_reserved, getLsbD_of_extractLsb' _ _ _ r.word_ovf, r.word_data⟩, fun s d rest hp => ?_⟩
  · refine r.word_status.trans ?_
    cases r.status <;> rfl
  · obtain ⟨t, r, ht, hr, hovf, ha⟩ := step_answers s d rest hp
    refine ⟨t, r, ht, hr, hovf, ?_⟩
    cases ha with
    | illegal _ _ hdata _ _ => exact ⟨fun _ => hdata, fun _ _ _ => hdata⟩
    | command i hw _ hdata =>
      rw [hw, extractLsb_op_encode]
      refine ⟨fun hno => ?_, fun hbit hbyte hsize => ?_⟩
      · exact hdata.resolve_right fun h => hno h.1
      · exact hdata.resolve_right fun h => not_hasResult i hbit hbyte hsize h.2

end Sys2Proof.Machine
end

section
/-! PROOFS. The encoding statements, third the reading: the fields of its record (30_encoding.md R73, R74), the frame
bits it depends on (R70), and the ranges of what a step emits (R75). -/

namespace Sys2Proof.Machine

/-! ### The reading record (R74) -/

/-- Each field of the record is one operand of the concatenation. -/
theorem Reading.record_fields (r : Reading) :
    r.record.extractLsb' 128 64 = r.primary ∧ r.record.extractLsb' 64 64 = r.secondary ∧
      r.record.extractLsb' 63 1 = BitVec.ofBool r.overloaded ∧ r.record.extractLsb' 60 3 = r.mode.code ∧
      r.record.extractLsb' 59 1 = BitVec.ofBool r.pneg ∧ r.record.extractLsb' 54 5 = BitVec.ofInt 5 r.pexp ∧
      r.record.extractLsb' 40 14 = BitVec.ofNat 14 r.pmant ∧ r.record.extractLsb' 39 1 = BitVec.ofBool r.svalid ∧
      r.record.extractLsb' 34 5 = BitVec.ofInt 5 r.sexp ∧ r.record.extractLsb' 20 14 = BitVec.ofNat 14 r.smant ∧
      r.record.extractLsb' 0 20 = 0#20 := by
  simp only [Reading.record]
  refine ⟨?_, ?_, ?_, ?_, ?_, ?_, ?_, ?_, ?_, ?_, ?_⟩ <;>
    simp (disch := omega) only [BitVec.extractLsb'_append_eq_of_add_le, BitVec.extractLsb'_append_eq_of_le]
  all_goals exact BitVec.extractLsb'_eq_self

/-- Settles O50, by the operands of the record's concatenation and the code of each mode. -/
theorem recordIsAsLaidOut : Obligations.RecordIsAsLaidOut := by
  unfold Obligations.RecordIsAsLaidOut
  intro r
  obtain ⟨hprimary, hsecondary, hovl, hmode, hpneg, hpexp, hpmant, hsvalid, hsexp, hsmant, hzero⟩ := r.record_fields
  refine ⟨hprimary, hsecondary, getLsbD_of_extractLsb' _ _ _ hovl, (congrArg BitVec.toNat hmode).trans ?_,
    getLsbD_of_extractLsb' _ _ _ hpneg, hpexp, hpmant, getLsbD_of_extractLsb' _ _ _ hsvalid, hsexp, hsmant, hzero⟩
  cases r.mode <;> rfl

/-! ### The frame bits a reading depends on (R70) -/

/-- Two frames agree on every flag of `flags`, and on the eight bits of every code of `codes`. -/
structure Agree (flags codes : List Nat) (f g : Nat → Bool) : Prop where
  flag : ∀ p ∈ flags, f p = g p
  code : ∀ o ∈ codes, ∀ k, k < 8 → f (o + k) = g (o + k)

/-- The flags of the mode, the scale and the primary field (30_encoding.md R70). -/
def primaryFlags (b : Build) : List Nat :=
  [b.offV, b.offI, b.offR, b.offT, b.offAC, b.offX6, b.offX3, b.offXM3, b.offXM6] ++ b.offDot.toList

theorem memRead8_congr (f g : Nat → Bool) (o : Nat) (h : ∀ k, k < 8 → f (o + k) = g (o + k)) :
    memRead8 f o = memRead8 g o :=
  BitVec.eq_of_getLsbD_eq fun i hi => by
    rw [memRead8_getLsbD f o i hi, memRead8_getLsbD g o i hi, h (7 - i) (by omega)]

section
variable {b : Build} {f g : Nat → Bool}

theorem resolveMode_congr (h : Agree (primaryFlags b) b.offDig.toList f g) : resolveMode b f = resolveMode b g := by
  simp only [resolveMode, h.flag b.offV (by simp [primaryFlags]), h.flag b.offI (by simp [primaryFlags]),
    h.flag b.offR (by simp [primaryFlags]), h.flag b.offT (by simp [primaryFlags]),
    h.flag b.offAC (by simp [primaryFlags])]

theorem scaleExponent_congr (h : Agree (primaryFlags b) b.offDig.toList f g) :
    scaleExponent b f = scaleExponent b g := by
  simp only [scaleExponent, h.flag b.offX6 (by simp [primaryFlags]), h.flag b.offX3 (by simp [primaryFlags]),
    h.flag b.offXM3 (by simp [primaryFlags]), h.flag b.offXM6 (by simp [primaryFlags])]

theorem primarySymbol_congr (h : Agree (primaryFlags b) b.offDig.toList f g) (i : Fin 4) :
    primarySymbol b f i = primarySymbol b g i :=
  congrArg (segLookup b.segTable) (memRead8_congr f g _ (h.code _ (by simp)))

theorem scanDigit_congr (h : Agree (primaryFlags b) b.offDig.toList f g) (i : Fin 4) (a : Scan) :
    scanDigit b f i a = scanDigit b g i a := by
  simp only [scanDigit, primarySymbol_congr h, h.flag b.offDot[i] (by simp [primaryFlags])]

theorem scanFrom_congr (h : Agree (primaryFlags b) b.offDig.toList f g) (is : List (Fin 4)) (a : Scan) :
    scanFrom b f is a = scanFrom b g is a := by
  induction is generalizing a with
  | nil => rfl
  | cons i is ih => simp only [scanFrom, primarySymbol_congr h, scanDigit_congr h, ih]

theorem secondarySymbol_congr (h : Agree (flagOffsets b) (codeOffsets b) f g) (i : Fin 4) :
    secondarySymbol b f i = secondarySymbol b g i :=
  congrArg (segLookup b.segTable) (memRead8_congr f g _ (h.code _ (by simp [codeOffsets])))

theorem decodeSecondary_congr (h : Agree (flagOffsets b) (codeOffsets b) f g) (mode : Mode) :
    decodeSecondary b f mode = decodeSecondary b g mode := by
  have hdot : ∀ i : Fin 3, f b.offSDot[i] = g b.offSDot[i] := fun i => h.flag _ (by simp [flagOffsets])
  simp only [decodeSecondary, secondarySum, secondaryShift, secondarySymbol_congr h, hdot,
    h.flag b.offSX3 (by simp [flagOffsets])]

/-- Outside AC modes the secondary field is not decoded (44_value_composition.md R193). -/
theorem decodeSecondary_of_not_isAC (b : Build) (f : Nat → Bool) (mode : Mode) (h : mode.isAC = false) :
    decodeSecondary b f mode = ⟨false, 0, 0, 0⟩ := by simp [decodeSecondary, h]

/-- A reading is what the primary part of the frame gives, and the secondary field. -/
theorem readingOf_congr (h : Agree (primaryFlags b) b.offDig.toList f g) (mode : Mode)
    (hsecondary : decodeSecondary b f mode = decodeSecondary b g mode) : readingOf b f mode = readingOf b g mode := by
  simp only [readingOf, scanPrimary, scanFrom_congr h, scaleExponent_congr h, hsecondary]

theorem decodeFrame_congr (h : Agree (primaryFlags b) b.offDig.toList f g)
    (hsecondary : ∀ mode, resolveMode b f = some mode → decodeSecondary b f mode = decodeSecondary b g mode) :
    decodeFrame b f = decodeFrame b g := by
  simp only [decodeFrame, ← resolveMode_congr h]
  exact Option.map_congr fun mode hmode => readingOf_congr h mode (hsecondary mode hmode)

end

theorem agree_of_fieldPositions (b : Build) (f g : Nat → Bool) (h : ∀ p ∈ fieldPositions b, f p = g p) :
    Agree (flagOffsets b) (codeOffsets b) f g where
  flag p hp := h p ((mem_fieldPositions b p).mpr (.inl hp))
  code o ho k hk := h (o + k) ((mem_fieldPositions b _).mpr (.inr ⟨o, ho, k, hk, rfl⟩))

theorem Agree.primary {b : Build} {f g : Nat → Bool} (h : Agree (flagOffsets b) (codeOffsets b) f g) :
    Agree (primaryFlags b) b.offDig.toList f g where
  flag p hp := h.flag p (by
    simp only [primaryFlags, flagOffsets, List.mem_append, List.mem_cons, List.not_mem_nil, or_false] at hp ⊢
    tauto)
  code o ho := h.code o (List.mem_append_left _ ho)

theorem isAC_eq_false (mode : Mode) (h : mode ≠ .voltageAC ∧ mode ≠ .currentAC) : mode.isAC = false := by
  cases mode with
  | voltageAC => exact absurd rfl h.1
  | currentAC => exact absurd rfl h.2
  | _ => rfl

/-- Settles O49: each function of the decoder reads the frame at its own positions, and outside AC modes the secondary
field is 0 whatever the frame holds. -/
theorem readingDependsOnItsFieldsOnly : Obligations.ReadingDependsOnItsFieldsOnly := by
  unfold Obligations.ReadingDependsOnItsFieldsOnly
  intro b f g
  refine ⟨fun h => ?_, fun hflag hcode hmode => ?_⟩
  · have hagree := agree_of_fieldPositions b f g h
    exact decodeFrame_congr hagree.primary fun mode _ => decodeSecondary_congr hagree mode
  · refine decodeFrame_congr ⟨hflag, hcode⟩ fun mode hm => ?_
    have hdc := isAC_eq_false mode (hmode mode hm)
    rw [decodeSecondary_of_not_isAC b f mode hdc, decodeSecondary_of_not_isAC b g mode hdc]

/-! ### The ranges of a reading (R75) -/

theorem digitValue_le (s : Option Symbol) : digitValue s ≤ 9 := by
  rcases s with _ | ⟨d⟩ | _
  · exact Nat.zero_le 9
  · exact Nat.le_of_lt_succ d.isLt
  · exact Nat.zero_le 9

/-- The weights of the digits still to come bound what they add to the digit sum. -/
theorem scanFrom_n_le (b : Build) (bit : Nat → Bool) (is : List (Fin 4)) (a : Scan) :
    (scanFrom b bit is a).n ≤ a.n + (is.map fun i => 9 * 10 ^ i.val).sum := by
  induction is generalizing a with
  | nil => exact Nat.le_refl _
  | cons i is ih =>
    have hdigit := Nat.mul_le_mul_right (10 ^ i.val) (digitValue_le (primarySymbol b bit i))
    have hrest := ih (scanDigit b bit i a)
    rw [scanFrom, List.map_cons, List.sum_cons]
    split
    · exact Nat.le_add_right _ _
    · simp only [scanDigit] at hrest ⊢
      omega

/-- How far the dot of primary digit `i` moves the point; that of digit 3 is the sign (43_segment_digits.md R174). -/
def pointPlace (i : Fin 4) : Nat := if i = 3 then 0 else i.val + 1

theorem scanDigit_shift_bounds (b : Build) (bit : Nat → Bool) (i : Fin 4) (a : Scan) :
    a.shift - pointPlace i ≤ (scanDigit b bit i a).shift ∧ (scanDigit b bit i a).shift ≤ a.shift := by
  by_cases hi : i = 3
  · simp [scanDigit, pointPlace, hi]
  · simp only [scanDigit, pointPlace, hi, if_false, ne_eq, not_false_eq_true, true_and]
    split <;> omega

/-- The places of the digits still to come bound how far they move the point. -/
theorem scanFrom_shift_bounds (b : Build) (bit : Nat → Bool) (is : List (Fin 4)) (a : Scan) :
    a.shift - (is.map pointPlace).sum ≤ (scanFrom b bit is a).shift ∧ (scanFrom b bit is a).shift ≤ a.shift := by
  induction is generalizing a with
  | nil => simp [scanFrom]
  | cons i is ih =>
    have hdigit := scanDigit_shift_bounds b bit i a
    have hrest := ih (scanDigit b bit i a)
    rw [List.map_cons, List.sum_cons]
    by_cases hstop : i = 1 ∧ primarySymbol b bit i = some .ol
    · rw [scanFrom, if_pos hstop]
      exact ⟨Int.sub_le_self _ (Int.natCast_nonneg _), Int.le_refl _⟩
    · rw [scanFrom, if_neg hstop]
      omega

theorem scanPrimary_n_le (b : Build) (bit : Nat → Bool) : (scanPrimary b bit).n ≤ 9999 :=
  scanFrom_n_le b bit [0, 1, 2, 3] ⟨false, 0, 0, false⟩

theorem scanPrimary_shift_bounds (b : Build) (bit : Nat → Bool) :
    -6 ≤ (scanPrimary b bit).shift ∧ (scanPrimary b bit).shift ≤ 0 :=
  scanFrom_shift_bounds b bit [0, 1, 2, 3] ⟨false, 0, 0, false⟩

theorem scaleExponent_bounds (b : Build) (bit : Nat → Bool) : -6 ≤ scaleExponent b bit ∧ scaleExponent b bit ≤ 6 := by
  unfold scaleExponent
  split_ifs <;> decide

theorem secondarySum_le (b : Build) (bit : Nat → Bool) : secondarySum b bit ≤ 9999 := by
  have hdigit : ∀ i ∈ ([0, 1, 2, 3] : List (Fin 4)),
      digitValue (secondarySymbol b bit i) * 10 ^ i.val ≤ 9 * 10 ^ i.val := fun i _ =>
    Nat.mul_le_mul_right _ (digitValue_le _)
  exact List.sum_le_sum hdigit

theorem secondaryShift_bounds (b : Build) (bit : Nat → Bool) :
    -6 ≤ secondaryShift b bit ∧ secondaryShift b bit ≤ 0 := by
  simp only [secondaryShift, List.map_cons, List.map_nil, List.sum_cons, List.sum_nil]
  split_ifs <;> decide

theorem readingOf_primary_bounds (b : Build) (bit : Nat → Bool) (mode : Mode) :
    (readingOf b bit mode).pmant ≤ 9999 ∧ -12 ≤ (readingOf b bit mode).pexp ∧ (readingOf b bit mode).pexp ≤ 6 := by
  have hscale := scaleExponent_bounds b bit
  have hshift := scanPrimary_shift_bounds b bit
  refine ⟨scanPrimary_n_le b bit, ?_⟩
  simp only [readingOf, composePrimary]
  split <;> omega

theorem decodeSecondary_bounds (b : Build) (bit : Nat → Bool) (mode : Mode) :
    (decodeSecondary b bit mode).mant ≤ 9999 ∧ -6 ≤ (decodeSecondary b bit mode).exp ∧
      (decodeSecondary b bit mode).exp ≤ 3 := by
  have hshift := secondaryShift_bounds b bit
  cases hac : mode.isAC with
  | true =>
    simp only [decodeSecondary, hac, if_true]
    refine ⟨secondarySum_le b bit, ?_⟩
    split <;> omega
  | false =>
    rw [decodeSecondary_of_not_isAC b bit mode hac]
    decide

/-- The secondary value is that of its digit sum and exponent, zeros included (44_value_composition.md R193). -/
theorem decodeSecondary_value (b : Build) (bit : Nat → Bool) (mode : Mode) :
    (decodeSecondary b bit mode).value =
      primary64 (decodeSecondary b bit mode).mant (decodeSecondary b bit mode).exp false := by
  cases hac : mode.isAC with
  | true => simp only [decodeSecondary, hac, if_true]
  | false =>
    rw [decodeSecondary_of_not_isAC b bit mode hac]
    decide

/-! ### What a step emits (41_frame_control.md R135) -/

/-- Only EN_EDGE writes the dispatch port, and on it the reading of the frame. -/
theorem Effect.dispatch {i : Instr} {s t : State} (h : Effect i s t) :
    t.dispatch = s.dispatch ∨ t.dispatch = s.dispatch ++ (frameReading s).toList := by
  cases h with
  | enEdge _ _ h => exact .inr (by simp [h])
  | _ => exact .inl (by subst_vars; simp)

/-- An emitted reading is decoded from the frame that the step found in the storage. -/
theorem readingOf_of_mem_dispatch (s t : State) (r : Reading) (h : step s = .next t) (hr : r ∈ t.dispatch) :
    ∃ mode, resolveMode s.build s.bitRead = some mode ∧ r = readingOf s.build s.bitRead mode := by
  cases step_cases s t h with
  | idle _ ht => simp [ht] at hr
  | illegal d rest _ _ _ ht => simp [ht, answerIllegal] at hr
  | command d rest _ i _ he =>
    rcases (exec_inv i _ t he).dispatch with hd | hd
    · simp [hd] at hr
    · have hframe : frameReading (deliver d rest s) = some r := by simpa [hd] using hr
      unfold frameReading at hframe
      split at hframe
      · cases hframe
      · obtain ⟨mode, hmode, heq⟩ := Option.map_eq_some_iff.mp hframe
        exact ⟨mode, hmode, heq.symm⟩

/-- Settles O51: the digit sums and exponents lie in ranges that their fields hold, and the values are composed from
them. -/
theorem emittedReadingsFitTheRecord : Obligations.EmittedReadingsFitTheRecord := by
  unfold Obligations.EmittedReadingsFitTheRecord
  intro s t r hstep hr
  obtain ⟨mode, _, hreading⟩ := readingOf_of_mem_dispatch s t r hstep hr
  obtain ⟨hpmant, hpexp, hpexp'⟩ : r.pmant ≤ 9999 ∧ -12 ≤ r.pexp ∧ r.pexp ≤ 6 :=
    hreading ▸ readingOf_primary_bounds s.build s.bitRead mode
  obtain ⟨hsmant, hsexp, hsexp'⟩ : r.smant ≤ 9999 ∧ -6 ≤ r.sexp ∧ r.sexp ≤ 3 :=
    hreading ▸ decodeSecondary_bounds s.build s.bitRead mode
  have hprimary : r.primary = primary64 r.pmant r.pexp r.pneg := hreading ▸ rfl
  have hsecondary : r.secondary = primary64 r.smant r.sexp false :=
    hreading ▸ decodeSecondary_value s.build s.bitRead mode
  obtain ⟨_, _, _, _, _, fpexp, fpmant, _, fsexp, fsmant, _⟩ := r.record_fields
  have hnat : ∀ n ≤ 9999, (BitVec.ofNat 14 n).toNat = n := fun n hn => Nat.mod_eq_of_lt (by omega)
  have hint : ∀ e : Int, -12 ≤ e → e ≤ 6 → (BitVec.ofInt 5 e).toInt = e := fun e hlo hhi =>
    BitVec.toInt_ofInt_eq_self (by decide) (by omega) (by omega)
  exact ⟨hpmant, hsmant, hpexp, hpexp', hsexp, hsexp', (congrArg _ fpmant).trans (hnat _ hpmant),
    (congrArg _ fpexp).trans (hint _ hpexp hpexp'), (congrArg _ fsmant).trans (hnat _ hsmant),
    (congrArg _ fsexp).trans (hint _ (by omega) (by omega)), hprimary, hsecondary⟩

end Sys2Proof.Machine
end

section
/-! PROOFS. The accumulator statements (40_accumulator.md), first one command at a time: NOP (R100), CONFIGURE (R102),
PUSH_BIT (R104), BIT_AT (R106), BYTE_AT (R107), SIZE (R108), RESET (R110), and the cursor (R109). -/

namespace Sys2Proof

/-! ### The command words (30_encoding.md R61) -/

/-- With `RSV` 0 a word is `OP << 28 | OPND`. -/
theorem encode_eq_or (i : Instr) : encode i = (opcode i).setWidth 32 <<< 28 ||| (operand i).setWidth 32 := by
  rw [encode, BitVec.append_def, BitVec.append_def, BitVec.shiftLeftZeroExtend_eq]
  simp

end Sys2Proof

namespace Sys2Proof.Machine

/-! ### What a command answers -/

/-- A command that writes nothing but its response is answered with it and has no other effect. -/
theorem answers_of_exec_eq_respond {i : Instr} {s : State} {st : Status} {d : Half}
    (h : exec i s = .next (respond st d s)) :
    ∃ t, exec i s = .next t ∧ SameBlock s t ∧ Answered s t st d ∧ t.dispatch = s.dispatch :=
  ⟨_, h, sameBlock_respond st d s, ⟨rfl, rfl, rfl, rfl⟩, rfl⟩

/-- The prologue's last line (40_accumulator.md R101). -/
theorem exec_of_unconfigured (i : Instr) (s : State) (hcfg : s.cfg = false) (hnop : i ≠ .nop)
    (hconfigure : ∀ e, i ≠ .configure e) : exec i s = .next (respond .nocfg 0 s) := by
  cases i with
  | nop => exact absurd rfl hnop
  | configure e => exact absurd rfl (hconfigure e)
  | _ => exact congrArg Host.Outcome.next (whenConfigured_of_not_cfg _ s hcfg)

theorem exec_nop (s : State) : exec .nop s = .next (respond .ok 0 s) := rfl

theorem exec_configure_of_configured (e : Half) (s : State) (hcfg : s.cfg = true) :
    exec (.configure e) s = .next (respond .illegal 0 s) := by simp [exec, execConfigure, answerIllegal, hcfg]

section
variable (s : State) (hcfg : s.cfg = true)
include hcfg

theorem exec_pushBit (v : Bool) : exec (.pushBit v) s = .next (push v s) :=
  congrArg Host.Outcome.next (whenConfigured_of_cfg (push v) s hcfg)

theorem exec_clkEdge : exec .clkEdge s = .next (push s.sampledData s) :=
  congrArg Host.Outcome.next (whenConfigured_of_cfg (fun s => push s.sampledData s) s hcfg)

theorem exec_size : exec .size s = .next (respond .ok s.cursor s) :=
  congrArg Host.Outcome.next (whenConfigured_of_cfg (fun s => respond .ok s.cursor s) s hcfg)

theorem exec_reset : exec .reset s = .next (respond .ok 0 (accReset s)) :=
  congrArg Host.Outcome.next (whenConfigured_of_cfg (fun s => respond .ok 0 (accReset s)) s hcfg)

theorem exec_bitAt_of_out_of_range (p : Half) (hp : storeBits s.exp ≤ p.toNat) :
    exec (.bitAt p) s = .next (respond .range 0 s) := by
  simp [exec, execBitAt, hcfg, positionOf, hp]

theorem exec_bitAt_of_in_range (p : Half) (hp : p.toNat < storeBits s.exp) :
    exec (.bitAt p) s = .next (respond .ok (zextBit (s.bitRead p.toNat)) s) := by
  simp [exec, execBitAt, hcfg, positionOf, Nat.not_le.mpr hp]

theorem exec_byteAt_of_out_of_range (p : Half) (hp : storeBits s.exp < p.toNat + 8) :
    exec (.byteAt p) s = .next (respond .range 0 s) := by
  simp [exec, execByteAt, hcfg, positionOf, hp]

theorem exec_byteAt_of_in_range (p : Half) (hp : p.toNat + 8 ≤ storeBits s.exp) :
    exec (.byteAt p) s = .next (respond .ok (zextByte (memRead8 s.bitRead p.toNat)) s) := by
  simp [exec, execByteAt, hcfg, positionOf, Nat.not_lt.mpr hp]

/-- The two commands that push (40_accumulator.md R104, 41_frame_control.md R131). -/
theorem exec_eq_push (i : Instr) (hi : i = .clkEdge ∨ ∃ v, i = .pushBit v) : ∃ v, exec i s = .next (push v s) := by
  rcases hi with rfl | ⟨v, rfl⟩
  · exact ⟨_, exec_clkEdge s hcfg⟩
  · exact ⟨v, exec_pushBit s hcfg v⟩

end

/-! ### The commands' data (R106, R107) -/

theorem zextBit_eq_ite (v : Bool) : zextBit v = if v then 1 else 0 := by cases v <;> rfl

theorem zextByte_getLsbD (v : Byte) (i : Nat) (hi : i < 8) : (zextByte v).getLsbD i = v.getLsbD i := by
  simp [zextByte, Nat.lt_trans hi (by decide : 8 < 16)]

/-- The upper byte of a byte's result is 0. -/
theorem zextByte_extractLsb'_high (v : Byte) : (zextByte v).extractLsb' 8 8 = 0 := by
  refine BitVec.eq_of_getLsbD_eq fun i hi => ?_
  simp [zextByte]

theorem zextByte_toNat (v : Byte) : (zextByte v).toNat = v.toNat :=
  BitVec.toNat_setWidth_of_le (by decide)

/-! ### The effects on the accumulator (R102, R104, R110) -/

theorem configured_create (e : Half) (s : State) : Configured e s (respond .ok 0 (create e s)) where
  cfg := rfl
  exp := rfl
  cursor := rfl
  ovf := rfl
  zeroed p hp := by rw [respond_bitRead, create_bitRead, if_pos hp]
  beyond p hp := by rw [respond_bitRead, create_bitRead, if_neg (Nat.not_lt.mpr hp)]

theorem cleared_accReset (s : State) : Cleared s (respond .ok 0 (accReset s)) where
  cfg := rfl
  exp := rfl
  cursor := rfl
  ovf := rfl
  window p hp := by rw [respond_bitRead, accReset_bitRead, if_pos hp]
  beyond p hp := by rw [respond_bitRead, accReset_bitRead, if_neg (Nat.not_lt.mpr hp)]

theorem appended_append (v : Bool) (s : State) : Appended v s (respond .ok 0 (append v s)) where
  cfg := rfl
  exp := rfl
  cursor := rfl
  ovf := rfl
  written := by rw [respond_bitRead, append_bitRead, if_pos rfl]
  others p hp := by rw [respond_bitRead, append_bitRead, if_neg hp]

theorem dropped_setOverflow (s : State) : Dropped s (respond .ok 0 (setOverflow s)) := ⟨rfl, rfl, rfl, rfl, rfl⟩

theorem push_of_below_capacity (v : Bool) (s : State) (h : s.cursor ≠ s.exp) :
    push v s = respond .ok 0 (append v s) :=
  (push_effect v s).elim And.right fun hfull => absurd hfull.1 h

theorem push_of_at_capacity (v : Bool) (s : State) (h : s.cursor = s.exp) : push v s = respond .ok 0 (setOverflow s) :=
  (push_effect v s).elim (fun hbelow => absurd h hbelow.1) And.right

/-! ### The statements about one command -/

/-- Settles O14: the three answers of CONFIGURE, its legal lengths being R102's three conditions. -/
theorem configureCreatesTheAccumulator : Obligations.ConfigureCreatesTheAccumulator := by
  unfold Obligations.ConfigureCreatesTheAccumulator
  intro e
  refine ⟨fun w => ?_, fun s hcfg => ?_, fun s hcfg hbad => ?_, fun s hcfg hpos hmax hfit => ?_⟩
  · simp [decode_eq_command_iff, encode_eq_or, opcode, operand]
  · exact answers_of_exec_eq_respond (exec_configure_of_configured e s hcfg)
  · have hlegal : legalExp s.build e = false := by
      rw [← Bool.not_eq_true, legalExp_iff]
      rintro ⟨hpos, hmax, hfit⟩
      rcases hbad with hzero | hlong | hnofit
      · omega
      · omega
      · simp [hfit] at hnofit
    exact answers_of_exec_eq_respond (exec_configure_of_not_legalExp e s hcfg hlegal)
  · have hlegal := (legalExp_iff s.build e).mpr ⟨hpos, hmax, hfit⟩
    exact ⟨_, exec_configure_of_legalExp e s hcfg hlegal, configured_create e s, ⟨rfl, rfl, rfl, rfl⟩, rfl⟩

/-- Settles O16, by the two cases of a push. -/
theorem pushBitAppendsOrOverflows : Obligations.PushBitAppendsOrOverflows := by
  unfold Obligations.PushBitAppendsOrOverflows
  intro v
  refine ⟨fun w => ?_, fun s hcfg => ?_, fun s hcfg hcap => ?_, fun s hcfg hcap => ?_⟩
  · rw [decode_eq_command_iff]
    cases v <;> rfl
  · exact answers_of_exec_eq_respond (exec_of_unconfigured _ s hcfg (by simp) (by simp))
  · rw [exec_pushBit s hcfg, push_of_below_capacity v s hcap]
    exact ⟨_, rfl, appended_append v s, ⟨rfl, rfl, rfl, rfl⟩, rfl⟩
  · rw [exec_pushBit s hcfg, push_of_at_capacity v s hcap]
    exact ⟨_, rfl, dropped_setOverflow s, ⟨rfl, rfl, rfl, rfl⟩, rfl⟩

/-- Settles O17: the bit read is the answer, and past the cursor the invariant (I-d) says that it is 0. -/
theorem bitAtReadsOneBit : Obligations.BitAtReadsOneBit := by
  unfold Obligations.BitAtReadsOneBit
  intro p
  refine ⟨fun w => ?_, fun s hcfg => ?_, fun s hcfg hp => ?_, fun s hcfg hp => ?_⟩
  · simp [decode_eq_command_iff, encode_eq_or, opcode, operand]
  · exact answers_of_exec_eq_respond (exec_of_unconfigured _ s hcfg (by simp) (by simp))
  · exact answers_of_exec_eq_respond (exec_bitAt_of_out_of_range s hcfg p hp)
  · rw [exec_bitAt_of_in_range s hcfg p hp, zextBit_eq_ite]
    refine ⟨_, rfl, sameBlock_respond _ _ s, ⟨rfl, rfl, rfl, rfl⟩, rfl, fun hzero hcursor => ?_⟩
    simp [hzero p.toNat hcursor hp]

/-- Settles O18: bit `7 - k` of the answer is the position `p + k`, and the window's extra byte keeps a read from
inside the frame in range. -/
theorem byteAtReadsEightBits : Obligations.ByteAtReadsEightBits := by
  unfold Obligations.ByteAtReadsEightBits
  intro p
  refine ⟨fun w => ?_, fun s hcfg => ?_, fun s hcfg hp => ?_, fun s hcfg hp => ?_, fun e he => ?_⟩
  · simp [decode_eq_command_iff, encode_eq_or, opcode, operand]
  · exact answers_of_exec_eq_respond (exec_of_unconfigured _ s hcfg (by simp) (by simp))
  · exact answers_of_exec_eq_respond (exec_byteAt_of_out_of_range s hcfg p hp)
  · have hbits : ∀ k, k < 8 → (zextByte (memRead8 s.bitRead p.toNat)).getLsbD (7 - k) = s.bitRead (p.toNat + k) :=
      fun k hk => by
        rw [zextByte_getLsbD _ _ (by omega), (byteReadIsMostSignificantFirst s.bitRead p.toNat).2 k hk]
    refine ⟨_, _, exec_byteAt_of_in_range s hcfg p hp, sameBlock_respond _ _ s, ⟨rfl, rfl, rfl, rfl⟩, rfl, hbits,
      zextByte_extractLsb'_high _, fun hzero k hk hcursor => ?_⟩
    rw [hbits k hk, hzero _ hcursor (by omega)]
  · have hwindow := exp_add_seven_le_storeBits e
    omega

/-- Settles O20: RESET is `AccReset()`, which zeroes the window alone. -/
theorem resetClearsTheWindow : Obligations.ResetClearsTheWindow := by
  unfold Obligations.ResetClearsTheWindow
  refine ⟨fun w => decode_eq_command_iff w .reset, fun s hcfg => ?_, fun s hcfg => ?_⟩
  · exact answers_of_exec_eq_respond (exec_of_unconfigured _ s hcfg (by simp) (by simp))
  · exact ⟨_, exec_reset s hcfg, cleared_accReset s, ⟨rfl, rfl, rfl, rfl⟩, rfl⟩

/-- Settles O13: NOP writes nothing but its response, configured or not. -/
theorem nopDoesNothing : Obligations.NopDoesNothing := by
  unfold Obligations.NopDoesNothing
  exact ⟨fun w => decode_eq_command_iff w .nop, fun s => answers_of_exec_eq_respond (exec_nop s)⟩

/-- Settles O19: the cursor is the answer, and after an overflow the invariant (I-c) says that it is `EXP`. -/
theorem sizeAnswersTheCursor : Obligations.SizeAnswersTheCursor := by
  unfold Obligations.SizeAnswersTheCursor
  refine ⟨fun w => decode_eq_command_iff w .size, fun s hcfg => ?_, fun s hcfg => ?_⟩
  · exact answers_of_exec_eq_respond (exec_of_unconfigured _ s hcfg (by simp) (by simp))
  · refine ⟨_, exec_size s hcfg, sameBlock_respond _ _ s, ⟨rfl, rfl, rfl, rfl⟩, rfl, fun hfull hovf => ?_⟩
    rw [respond_response, hovf, hfull hovf]

/-! ### The cursor (R109) -/

/-- A push raises the cursor by one below capacity, and leaves it at `EXP` there. -/
theorem push_cursor (v : Bool) (s : State) (hle : s.cursor.toNat ≤ s.exp.toNat) :
    ((push v s).cursor.toNat = s.cursor.toNat + 1 ∧ s.cursor ≠ s.exp) ∨
      ((push v s).cursor = s.exp ∧ s.cursor = s.exp) := by
  rcases push_effect v s with ⟨hcap, h⟩ | ⟨hcap, h⟩
  · left
    rw [h]
    exact ⟨toNat_cursor_add_one s hle hcap, hcap⟩
  · right
    rw [h]
    exact ⟨hcap, hcap⟩

/-- Outside the commands that clear the accumulator or create it, only a push writes the cursor. -/
theorem BlockUpdate.cursor_le {i : Instr} {s t : State} (hu : BlockUpdate i s t) (hle : CursorInCapacity s)
    (hreset : i ≠ .reset) (henEdge : i ≠ .enEdge) (hconfigure : ∀ e, i ≠ .configure e) :
    s.cursor.toNat ≤ t.cursor.toNat := by
  cases hu with
  | kept hb => rw [hb.cursor]
  | created e hi => exact absurd hi (hconfigure e)
  | appended v _ _ hcfg hcap hb =>
    rw [hb.cursor, append_cursor, toNat_cursor_add_one s (hle hcfg) hcap]
    exact Nat.le_succ _
  | overflowed _ _ _ _ hb => rw [hb.cursor, setOverflow_cursor]
  | cleared hi => exact absurd hi (not_or.mpr ⟨hreset, henEdge⟩)

/-- Settles O28, by the cases of what a command does to `S`, and those of a push. -/
theorem cursorIsMonotone : Obligations.CursorIsMonotone := by
  unfold Obligations.CursorIsMonotone
  intro s t i hle hexec hreset henEdge hconfigure
  refine ⟨(exec_inv i s t hexec).blockUpdate.cursor_le hle hreset henEdge hconfigure, fun hcfg hi => ?_⟩
  obtain ⟨v, hpush⟩ := exec_eq_push s hcfg i hi
  obtain rfl := Host.Outcome.next.inj (hpush.symm.trans hexec)
  exact push_cursor v s (hle hcfg)

end Sys2Proof.Machine
end

section
/-! PROOFS. The accumulator statements (40_accumulator.md), second the push/read laws (R111): what the accumulator holds
after any bits pushed into it, and after RESET. -/

namespace Sys2Proof.Machine

/-! ### The bits a frame holds -/

/-- The bits in a window of capacity `e` after the pushes of `bits`: each at its place, those past the capacity dropped,
and 0 from the cursor on. -/
def windowBit (e : Half) (bits : List Bool) (p : Nat) : Bool := if p < e.toNat then bits.getD p false else false

theorem windowBit_of_length_le (e : Half) (bits : List Bool) (p : Nat) (hp : bits.length ≤ p) :
    windowBit e bits p = false := by
  rw [windowBit, List.getD_eq_default _ _ hp, ite_self]

theorem windowBit_append_of_lt (e : Half) (bits : List Bool) (v : Bool) (p : Nat) (hlen : bits.length < e.toNat) :
    windowBit e (bits ++ [v]) p = if p = bits.length then v else windowBit e bits p := by
  rcases Nat.lt_trichotomy p bits.length with hp | rfl | hp
  · rw [if_neg (Nat.ne_of_lt hp), windowBit, windowBit, List.getD_append _ _ _ _ hp]
  · simp [windowBit, hlen]
  · rw [if_neg (Nat.ne_of_gt hp), windowBit_of_length_le _ _ _ (by simpa using hp),
      windowBit_of_length_le _ _ _ (Nat.le_of_lt hp)]

theorem windowBit_append_of_le (e : Half) (bits : List Bool) (v : Bool) (p : Nat) (hlen : e.toNat ≤ bits.length) :
    windowBit e (bits ++ [v]) p = windowBit e bits p := by
  by_cases hp : p < e.toNat
  · rw [windowBit, windowBit, List.getD_append _ _ _ _ (Nat.lt_of_lt_of_le hp hlen)]
  · rw [windowBit, windowBit, if_neg hp, if_neg hp]

/-! ### The accumulator after some pushes -/

/-- The accumulator is as `bits`, pushed since it was last empty, have left it (40_accumulator.md R104). -/
structure Accumulated (bits : List Bool) (s : State) : Prop where
  cfg : s.cfg = true
  cursor : s.cursor.toNat = min bits.length s.exp.toNat
  ovf : s.ovf = decide (s.exp.toNat < bits.length)
  window : ∀ p, p < storeBits s.exp → s.bitRead p = windowBit s.exp bits p

theorem SameBlock.accumulated {bits : List Bool} {s t : State} (hb : SameBlock s t) (h : Accumulated bits s) :
    Accumulated bits t where
  cfg := hb.cfg.trans h.cfg
  cursor := by rw [hb.cursor, hb.exp, h.cursor]
  ovf := by rw [hb.ovf, hb.exp, h.ovf]
  window := by rw [hb.bitRead, hb.exp]; exact h.window

/-- A good state with its cursor at 0 is an empty accumulator: its flag is clear, because a legal length is not 0. -/
theorem accumulated_nil (s : State) (h : Safe s) (hcfg : s.cfg = true) (hcursor : s.cursor = 0) :
    Accumulated [] s := by
  obtain ⟨_, _, hfull, hzero⟩ := h.accumulator
  obtain ⟨hpos, _, _⟩ := h.length hcfg
  have hovf : s.ovf = false := by
    rw [← Bool.not_eq_true]
    intro hovf
    have hexp : s.exp.toNat = 0 := congrArg BitVec.toNat ((hfull hovf).symm.trans hcursor)
    omega
  refine ⟨hcfg, by simp [hcursor], by simp [hovf], fun p hp => ?_⟩
  rw [hzero p (by simp [hcursor]) hp, windowBit_of_length_le _ _ _ (Nat.zero_le p)]

theorem accumulated_append (v : Bool) (bits : List Bool) (s : State) (h : Accumulated bits s)
    (hcap : s.cursor ≠ s.exp) : Accumulated (bits ++ [v]) (append v s) := by
  have hcursor := h.cursor
  have hne : s.cursor.toNat ≠ s.exp.toNat := fun heq => hcap (BitVec.eq_of_toNat_eq heq)
  have hlen : bits.length < s.exp.toNat := by omega
  have hplace : s.cursor.toNat = bits.length := by omega
  refine ⟨h.cfg, ?_, ?_, fun p hp => ?_⟩
  · rw [append_cursor, append_exp, toNat_cursor_add_one s (by omega) hcap, List.length_append, List.length_singleton]
    omega
  · rw [append_ovf, append_exp, h.ovf, List.length_append, List.length_singleton, decide_eq_decide]
    omega
  · rw [append_exp] at hp ⊢
    rw [append_bitRead, windowBit_append_of_lt _ _ _ _ hlen, h.window p hp, hplace]
    split
    · rw [windowBit_of_length_le _ _ _ (by omega), Bool.false_or]
    · rfl

theorem accumulated_setOverflow (v : Bool) (bits : List Bool) (s : State) (h : Accumulated bits s)
    (hcap : s.cursor = s.exp) : Accumulated (bits ++ [v]) (setOverflow s) := by
  have hcursor := h.cursor
  rw [hcap] at hcursor
  have hlen : s.exp.toNat ≤ bits.length := by omega
  refine ⟨h.cfg, ?_, ?_, fun p hp => ?_⟩
  · rw [setOverflow_cursor, setOverflow_exp, hcap, List.length_append]
    omega
  · rw [setOverflow_ovf, setOverflow_exp, List.length_append, List.length_singleton]
    exact (decide_eq_true (by omega)).symm
  · rw [setOverflow_exp] at hp ⊢
    rw [setOverflow_bitRead, windowBit_append_of_le _ _ _ _ hlen, h.window p hp]

theorem accumulated_push (v : Bool) (bits : List Bool) (s : State) (h : Accumulated bits s) :
    Accumulated (bits ++ [v]) (push v s) := by
  rcases push_effect v s with ⟨hcap, hpush⟩ | ⟨hcap, hpush⟩
  · rw [hpush]
    exact (sameBlock_respond _ _ _).accumulated (accumulated_append v bits s h hcap)
  · rw [hpush]
    exact (sameBlock_respond _ _ _).accumulated (accumulated_setOverflow v bits s h hcap)

/-! ### Runs of pushes -/

@[simp] theorem push_exp (v : Bool) (s : State) : (push v s).exp = s.exp := by
  unfold push
  split <;> rfl

@[simp] theorem push_build (v : Bool) (s : State) : (push v s).build = s.build := by
  unfold push
  split <;> rfl

@[simp] theorem push_pending (v : Bool) (s : State) : (push v s).pending = s.pending := by
  unfold push
  split <;> rfl

@[simp] theorem push_dispatch (v : Bool) (s : State) : (push v s).dispatch = s.dispatch := by
  unfold push
  split <;> rfl

/-- The delivery pushes the bit `v`: PUSH_BIT by its operand, CLK_EDGE by the data level with it. -/
def Delivery.Pushes (d : Delivery) (v : Bool) : Prop :=
  decode d.word = .command (.pushBit v) ∨ (decode d.word = .command .clkEdge ∧ d.sampled = v)

theorem step_of_pushes (s : State) (d : Delivery) (rest : List Delivery) (v : Bool) (hcfg : s.cfg = true)
    (hp : s.pending = d :: rest) (hd : d.Pushes v) : step s = .next (push v (deliver d rest s)) := by
  rcases hd with hd | ⟨hd, rfl⟩
  · exact (step_of_command s d rest _ hp hd).trans (exec_pushBit (deliver d rest s) hcfg v)
  · exact (step_of_command s d rest _ hp hd).trans (exec_clkEdge (deliver d rest s) hcfg)

theorem sameBlock_deliver (d : Delivery) (rest : List Delivery) (s : State) : SameBlock s (deliver d rest s) :=
  ⟨rfl, rfl, rfl, rfl, rfl⟩

/-- A run of pushes accumulates their bits, in order, and emits nothing. -/
theorem runReadings_of_pushes {ds : List Delivery} {bits : List Bool} (hds : List.Forall₂ Delivery.Pushes ds bits)
    (rest : List Delivery) (before : List Bool) (s : State) (h : Accumulated before s)
    (hp : s.pending = ds ++ rest) :
    ∃ t, runReadings ds.length s = some ([], t) ∧ Accumulated (before ++ bits) t ∧ t.pending = rest ∧
      t.exp = s.exp ∧ t.build = s.build := by
  induction hds generalizing before s with
  | nil => exact ⟨s, rfl, by rwa [List.append_nil], hp, rfl, rfl⟩
  | @cons d v ds bits hd _ ih =>
    have hdeliver : Accumulated before (deliver d (ds ++ rest) s) :=
      (sameBlock_deliver d (ds ++ rest) s).accumulated h
    obtain ⟨t, hrun, hacc, hpending, hexp, hbuild⟩ :=
      ih (before ++ [v]) (push v (deliver d (ds ++ rest) s)) (accumulated_push v before _ hdeliver) (by simp)
    refine ⟨t, ?_, by rwa [List.append_assoc] at hacc, hpending, by rw [hexp, push_exp, deliver_exp],
      by rw [hbuild, push_build, deliver_build]⟩
    rw [List.length_cons, runReadings_succ _ s _ (step_of_pushes s d (ds ++ rest) v h.cfg hp hd), hrun, push_dispatch]
    rfl

/-! ### Reads of the accumulator (R111) -/

/-- SIZE after the pushes (40_accumulator.md R111 (a), (b)). -/
theorem Accumulated.exec_size_eq {bits : List Bool} {t : State} (h : Accumulated bits t) :
    exec .size t = .next (respond .ok (BitVec.ofNat 16 (min bits.length t.exp.toNat)) t) := by
  rw [exec_size t h.cfg, ← h.cursor, BitVec.ofNat_toNat, BitVec.setWidth_eq]

/-- A byte read inside the window sees nothing but the window. -/
theorem Accumulated.memRead8_eq {bits : List Bool} {t : State} (h : Accumulated bits t) (p : Nat)
    (hp : p + 8 ≤ storeBits t.exp) : memRead8 t.bitRead p = memRead8 (windowBit t.exp bits) p :=
  memRead8_congr _ _ p fun k hk => h.window (p + k) (by omega)

theorem accumulated_accReset (s : State) (hcfg : s.cfg = true) : Accumulated [] (accReset s) := by
  refine ⟨hcfg, by simp, by simp, fun p hp => ?_⟩
  rw [accReset_exp] at hp
  rw [accReset_bitRead, if_pos hp, windowBit_of_length_le _ _ _ (Nat.zero_le p)]

/-- The reads of an empty accumulator: SIZE and every read in range answer 0 (40_accumulator.md R111 (d)). -/
theorem Accumulated.reads_of_nil {u : State} (h : Accumulated [] u) :
    (∃ v, exec .size u = .next v ∧ v.response = some ⟨.ok, false, 0⟩) ∧
      (∀ p : Half, p.toNat < storeBits u.exp →
        ∃ v, exec (.bitAt p) u = .next v ∧ v.response = some ⟨.ok, false, 0⟩) ∧
      (∀ p : Half, p.toNat + 8 ≤ storeBits u.exp →
        ∃ v, exec (.byteAt p) u = .next v ∧ v.response = some ⟨.ok, false, 0⟩) := by
  have hovf : u.ovf = false := h.ovf
  have hzero : windowBit u.exp [] = fun _ => false :=
    funext fun p => windowBit_of_length_le _ _ _ (Nat.zero_le p)
  refine ⟨⟨_, h.exec_size_eq, ?_⟩, fun p hp => ⟨_, exec_bitAt_of_in_range u h.cfg p hp, ?_⟩,
    fun p hp => ⟨_, exec_byteAt_of_in_range u h.cfg p hp, ?_⟩⟩
  · simp [hovf]
  · rw [respond_response, hovf, h.window _ hp, hzero]
    rfl
  · rw [respond_response, hovf, h.memRead8_eq _ hp, hzero]
    rfl

/-- The delivery of a push given by its bit, whether it is a clock edge, and the data level beside a PUSH_BIT. -/
def pushDelivery (a : Bool × Bool × Bool) : Delivery :=
  if a.2.1 then ⟨0x70000000, a.1⟩ else ⟨if a.1 then 0x20000001 else 0x20000000, a.2.2⟩

theorem pushDelivery_pushes (a : Bool × Bool × Bool) : (pushDelivery a).Pushes a.1 := by
  obtain ⟨v, edge, level⟩ := a
  cases edge with
  | true => exact .inr ⟨decode_encode .clkEdge, rfl⟩
  | false =>
    left
    cases v with
    | true => exact decode_encode (.pushBit true)
    | false => exact decode_encode (.pushBit false)

/-- Settles O27: the pushes accumulate their bits, the reads answer what is accumulated, and RESET empties it. -/
theorem pushReadLaws : Obligations.PushReadLaws := by
  unfold Obligations.PushReadLaws
  intro s pushes rest hsafe hcfg hcursor hpending
  have hpushes : List.Forall₂ Delivery.Pushes (pushes.map pushDelivery) (pushes.map Prod.fst) := by
    rw [List.forall₂_map_left_iff, List.forall₂_map_right_iff, List.forall₂_same]
    exact fun a _ => pushDelivery_pushes a
  obtain ⟨t, hrun, hacc, hrest, hexp, _⟩ :=
    runReadings_of_pushes hpushes rest [] s (accumulated_nil s hsafe hcfg hcursor) hpending
  rw [List.length_map] at hrun
  rw [List.nil_append] at hacc
  refine ⟨t, hrun, hrest, hexp, ?_, ⟨?_, ?_, fun p hp => ?_⟩, respond .ok 0 (accReset t), exec_reset t hacc.cfg, ?_⟩
  · rw [hacc.ovf, hexp, List.length_map]
  · refine ⟨_, hacc.exec_size_eq, ?_⟩
    rw [respond_response, hexp, List.length_map]
  · rw [← hexp]
    exact hacc.window
  · rw [← hexp] at hp ⊢
    refine ⟨_, _, exec_byteAt_of_in_range t hacc.cfg p hp, rfl, ?_⟩
    rw [zextByte_toNat, hacc.memRead8_eq _ hp]
    exact (byteReadIsMostSignificantFirst _ _).1
  · rw [← hexp]
    exact ((sameBlock_respond _ _ _).accumulated (accumulated_accReset t hacc.cfg)).reads_of_nil

end Sys2Proof.Machine
end

section
/-! PROOFS. The frame control statements (41_frame_control.md): the pin wrapper (R130), CLK_EDGE (R131, R132), EN_EDGE
(R133), what a step emits (R135), the silence of a discard (R137), and the frame law (R139). -/

namespace Sys2Proof.Machine

/-! ### The pin wrapper (R130) -/

/-- What the clock line gives of a change: one CLK_EDGE on a falling edge. -/
def LineChange.clockEdges (c : LineChange) : List Delivery := if c.clockFalls then [clockDelivery c.data] else []

/-- What the enable line gives of a change: one EN_EDGE on a change in either direction. -/
def LineChange.enableEdges (c : LineChange) : List Delivery := if c.enableChanges then [enableDelivery c.data] else []

/-- The wrapper delivers the edges of both lines, in either order (60_exceptions.md R227). -/
theorem mem_pinWrapper (c : LineChange) (ds : List Delivery) :
    ds ∈ pinWrapper c ↔ ds = c.clockEdges ++ c.enableEdges ∨ ds = c.enableEdges ++ c.clockEdges := by
  unfold pinWrapper LineChange.clockEdges LineChange.enableEdges
  cases c.clockFalls with
  | false => cases c.enableChanges <;> simp
  | true => cases c.enableChanges <;> simp

theorem decode_of_mem_clockEdges (c : LineChange) (d : Delivery) (h : d ∈ c.clockEdges) :
    decode d.word = .command .clkEdge := by
  unfold LineChange.clockEdges at h
  split at h
  · rw [List.mem_singleton.mp h]
    exact decode_encode .clkEdge
  · cases h

theorem decode_of_mem_enableEdges (c : LineChange) (d : Delivery) (h : d ∈ c.enableEdges) :
    decode d.word = .command .enEdge := by
  unfold LineChange.enableEdges at h
  split at h
  · rw [List.mem_singleton.mp h]
    exact decode_encode .enEdge
  · cases h

theorem clockEdges_eq (c : LineChange) :
    c.clockEdges = if c.clockBefore = true ∧ c.clockAfter = false then [⟨0x70000000, c.data⟩] else [] := by
  simp only [LineChange.clockEdges, LineChange.clockFalls, Bool.and_eq_true, Bool.not_eq_true']
  rfl

theorem length_enableEdges (c : LineChange) :
    c.enableEdges.length = if c.enableBefore = c.enableAfter then 0 else 1 := by
  by_cases h : c.enableBefore = c.enableAfter <;> simp [LineChange.enableEdges, LineChange.enableChanges, h]

theorem filter_clockEdges (c : LineChange) (i : Instr) :
    (c.clockEdges.filter fun d => decode d.word == .command i) = if i = .clkEdge then c.clockEdges else [] := by
  split
  · next hi => exact List.filter_eq_self.mpr fun d hd => by simp [decode_of_mem_clockEdges c d hd, hi]
  · next hi => exact List.filter_eq_nil_iff.mpr fun d hd => by simp [decode_of_mem_clockEdges c d hd, Ne.symm hi]

theorem filter_enableEdges (c : LineChange) (i : Instr) :
    (c.enableEdges.filter fun d => decode d.word == .command i) = if i = .enEdge then c.enableEdges else [] := by
  split
  · next hi => exact List.filter_eq_self.mpr fun d hd => by simp [decode_of_mem_enableEdges c d hd, hi]
  · next hi => exact List.filter_eq_nil_iff.mpr fun d hd => by simp [decode_of_mem_enableEdges c d hd, Ne.symm hi]

/-- Settles O29: an admitted list is the edges of the two lines in one of the orders, and each line gives one command. -/
theorem pinWrapperDeliversEdges : Obligations.PinWrapperDeliversEdges := by
  unfold Obligations.PinWrapperDeliversEdges
  intro c
  refine ⟨List.ne_nil_of_mem ((mem_pinWrapper c _).mpr (.inl rfl)), fun ds hds => ?_⟩
  rw [← clockEdges_eq, ← length_enableEdges]
  rcases (mem_pinWrapper c ds).mp hds with rfl | rfl
  all_goals
    simp only [List.filter_append, filter_clockEdges, filter_enableEdges, List.mem_append]
    refine ⟨by simp, by simp, fun d hd => ?_⟩
  · exact hd.imp (decode_of_mem_clockEdges c d) (decode_of_mem_enableEdges c d)
  · exact hd.symm.imp (decode_of_mem_clockEdges c d) (decode_of_mem_enableEdges c d)

/-! ### CLK_EDGE (R131, R132) -/

theorem answered_push (v : Bool) (s : State) : Answered s (push v s) .ok 0 := by
  rcases push_effect v s with ⟨_, h⟩ | ⟨_, h⟩
  · exact h ▸ ⟨rfl, rfl, rfl, rfl⟩
  · exact h ▸ ⟨rfl, rfl, rfl, rfl⟩

/-- Settles O22: configured or not, CLK_EDGE is PUSH_BIT of the sampled level. -/
theorem clkEdgePushesTheSampledBit : Obligations.ClkEdgePushesTheSampledBit := by
  unfold Obligations.ClkEdgePushesTheSampledBit
  refine ⟨fun w => decode_eq_command_iff w .clkEdge, fun s hcfg => ?_, fun s hcfg => ?_, fun s => rfl⟩
  · exact answers_of_exec_eq_respond (exec_of_unconfigured _ s hcfg (by simp) (by simp))
  · refine ⟨_, exec_clkEdge s hcfg, answered_push _ s, push_dispatch _ s, fun hcap => ?_, fun hcap => ?_⟩
    · rw [push_of_below_capacity _ s hcap]
      exact appended_append _ s
    · rw [push_of_at_capacity _ s hcap]
      exact dropped_setOverflow s

/-! ### The reading of the frame in the storage (R133, steps 1 and 2) -/

@[simp] theorem frameReading_deliver (d : Delivery) (rest : List Delivery) (s : State) :
    frameReading (deliver d rest s) = frameReading s := rfl

theorem malformedLength_iff (s : State) : malformedLength s = true ↔ s.ovf = true ∨ s.cursor ≠ s.exp := by
  simp [malformedLength]

theorem frameReading_of_malformed (s : State) (h : s.ovf = true ∨ s.cursor ≠ s.exp) : frameReading s = none :=
  if_pos ((malformedLength_iff s).mpr h)

theorem frameReading_of_complete (s : State) (hovf : s.ovf = false) (hlen : s.cursor = s.exp) :
    frameReading s = decodeFrame s.build s.bitRead :=
  if_neg (by simp [malformedLength_iff, hovf, hlen])

theorem decodeFrame_eq_none_iff (b : Build) (bit : Nat → Bool) :
    decodeFrame b bit = none ↔ resolveMode b bit = none := Option.map_eq_none_iff

theorem frameReading_of_no_mode (s : State) (h : resolveMode s.build s.bitRead = none) : frameReading s = none := by
  unfold frameReading
  split
  · rfl
  · exact (decodeFrame_eq_none_iff _ _).mpr h

/-- The accepted frames (41_frame_control.md R133): of the right length, without an overflow, with a mode. -/
theorem frameReading_ne_none_iff (s : State) :
    frameReading s ≠ none ↔ s.ovf = false ∧ s.cursor = s.exp ∧ resolveMode s.build s.bitRead ≠ none := by
  constructor
  · intro h
    have hgood : ¬ (s.ovf = true ∨ s.cursor ≠ s.exp) := fun hbad => h (frameReading_of_malformed s hbad)
    rw [not_or, Bool.not_eq_true, not_not] at hgood
    exact ⟨hgood.1, hgood.2, fun hmode => h (frameReading_of_no_mode s hmode)⟩
  · rintro ⟨hovf, hlen, hmode⟩
    rwa [frameReading_of_complete s hovf hlen, Ne, decodeFrame_eq_none_iff]

/-! ### EN_EDGE (R133) -/

/-- The state EN_EDGE leaves: as RESET's, with the reading of the frame on the dispatch port. -/
def afterEnEdge (s : State) : State :=
  { respond .ok 0 (accReset s) with dispatch := s.dispatch ++ (frameReading s).toList }

@[simp] theorem afterEnEdge_dispatch (s : State) :
    (afterEnEdge s).dispatch = s.dispatch ++ (frameReading s).toList := rfl

theorem exec_enEdge (s : State) (hcfg : s.cfg = true) : exec .enEdge s = .next (afterEnEdge s) := by
  refine congrArg Host.Outcome.next ((whenConfigured_of_cfg _ s hcfg).trans ?_)
  rw [afterEnEdge]
  cases frameReading s with
  | none =>
    rw [Option.toList_none, List.append_nil]
    rfl
  | some r => rfl

theorem cleared_afterEnEdge (s : State) : Cleared s (afterEnEdge s) := { cleared_accReset s with }

/-- Settles O23: the state after an EN_EDGE is RESET's but for the dispatch port, which has the reading of the frame
as it stood before. -/
theorem enEdgeDecodesDispatchesAndResets : Obligations.EnEdgeDecodesDispatchesAndResets := by
  unfold Obligations.EnEdgeDecodesDispatchesAndResets
  refine ⟨fun w => decode_eq_command_iff w .enEdge, fun s hcfg => ?_, fun s hcfg => ?_⟩
  · exact answers_of_exec_eq_respond (exec_of_unconfigured _ s hcfg (by simp) (by simp))
  · refine ⟨_, exec_enEdge s hcfg, cleared_afterEnEdge s, ⟨rfl, rfl, rfl, rfl⟩, fun hbad => ?_,
      fun _ _ hmode => ?_, fun mode hovf hlen hmode => ⟨readingOf s.build s.bitRead mode, ?_, rfl, rfl, rfl, rfl⟩⟩
    · simp [frameReading_of_malformed s hbad]
    · simp [frameReading_of_no_mode s hmode]
    · simp [frameReading_of_complete s hovf hlen, decodeFrame, hmode]

/-! ### The readings of a step (R135) -/

/-- The next command of the port is an EN_EDGE. -/
def TakesEnEdge (s : State) : Prop := ∃ d rest, s.pending = d :: rest ∧ decode d.word = .command .enEdge

theorem takesEnEdge_iff_of_pending (s : State) (d : Delivery) (rest : List Delivery) (hp : s.pending = d :: rest) :
    TakesEnEdge s ↔ decode d.word = .command .enEdge := by
  simp [TakesEnEdge, hp]

theorem Effect.dispatch_of_ne_enEdge {i : Instr} {s t : State} (h : Effect i s t) (hi : i ≠ .enEdge) :
    t.dispatch = s.dispatch := by
  cases h with
  | enEdge he => exact absurd he hi
  | _ => subst_vars; rfl

/-- The dispatch port after a step: the reading of the frame if the step took an EN_EDGE and the block is configured,
and nothing otherwise. -/
theorem step_dispatch (s t : State) (h : step s = .next t) :
    (TakesEnEdge s ∧ s.cfg = true ∧ t.dispatch = (frameReading s).toList) ∨
      (¬ (TakesEnEdge s ∧ s.cfg = true) ∧ t.dispatch = []) := by
  cases step_cases s t h with
  | idle hp ht => exact .inr ⟨by simp [TakesEnEdge, hp], ht ▸ rfl⟩
  | illegal d rest hp why hd ht => exact .inr ⟨by simp [takesEnEdge_iff_of_pending s d rest hp, hd], ht ▸ rfl⟩
  | command d rest hp i hd he =>
    have htakes : TakesEnEdge s ↔ i = .enEdge := by simp [takesEnEdge_iff_of_pending s d rest hp, hd]
    rw [htakes]
    by_cases hi : i = .enEdge
    · subst hi
      cases hcfg : s.cfg with
      | true =>
        obtain rfl := Host.Outcome.next.inj ((exec_enEdge (deliver d rest s) hcfg).symm.trans he)
        exact .inl ⟨rfl, rfl, rfl⟩
      | false =>
        have hno := exec_of_unconfigured .enEdge (deliver d rest s) hcfg (by simp) (by simp)
        obtain rfl := Host.Outcome.next.inj (hno.symm.trans he)
        exact .inr ⟨by simp, rfl⟩
    · exact .inr ⟨fun h => hi h.1, (exec_inv i _ t he).dispatch_of_ne_enEdge hi⟩

/-- Settles O24: a step emits the reading of the frame or nothing, and the frame has a reading exactly when it is
accepted. -/
theorem oneReadingPerAcceptedFrame : Obligations.OneReadingPerAcceptedFrame := by
  unfold Obligations.OneReadingPerAcceptedFrame
  intro s t hstep
  change _ ∧ (_ ↔ TakesEnEdge s ∧ _)
  rw [← frameReading_ne_none_iff]
  rcases step_dispatch s t hstep with ⟨htakes, hcfg, hd⟩ | ⟨hno, hd⟩
  · rw [hd]
    cases frameReading s <;> simp [htakes, hcfg]
  · exact ⟨.inl hd, fun h => absurd hd h, fun ⟨htakes, hcfg, _⟩ => absurd ⟨htakes, hcfg⟩ hno⟩

/-! ### A discard is silent (R137) -/

/-- No command reads the dispatch port. -/
theorem step_of_dispatch (rs : List Reading) (s : State) : step { s with dispatch := rs } = step s := rfl

/-- In a good state `AccReset()` leaves no byte listed: past the window the storage is 0 already (10_state.md R27). -/
theorem accReset_store_eq_nil (s : State) (h : Safe s) (hcfg : s.cfg = true) : (accReset s).store = [] := by
  obtain ⟨hwf, hbound⟩ := h.store
  exact Memory.clearBelow_eq_nil s.store (physBytes s.build) (nbytes s.exp) hwf hbound (h.padding hcfg)

/-- After an EN_EDGE two good blocks of one length and one set of parameters differ in nothing but the dispatch port. -/
theorem afterEnEdge_eq (s₁ s₂ : State) (h₁ : Safe s₁) (h₂ : Safe s₂) (hcfg₁ : s₁.cfg = true) (hcfg₂ : s₂.cfg = true)
    (hexp : s₁.exp = s₂.exp) (hbuild : s₁.build = s₂.build) (d : Delivery) (rest : List Delivery) :
    afterEnEdge (deliver d rest s₂) =
      { afterEnEdge (deliver d rest s₁) with dispatch := (afterEnEdge (deliver d rest s₂)).dispatch } := by
  have hstore : (accReset s₂).store = (accReset s₁).store :=
    (accReset_store_eq_nil s₂ h₂ hcfg₂).trans (accReset_store_eq_nil s₁ h₁ hcfg₁).symm
  simp only [accReset_store] at hstore
  simp only [afterEnEdge, respond, accReset, deliver, hcfg₁, hcfg₂, hexp, hbuild, hstore]

theorem step_of_enEdge (s : State) (d : Delivery) (rest : List Delivery) (hcfg : s.cfg = true)
    (hp : s.pending = d :: rest) (hd : decode d.word = .command .enEdge) :
    step s = .next (afterEnEdge (deliver d rest s)) :=
  (step_of_command s d rest .enEdge hp hd).trans (exec_enEdge (deliver d rest s) hcfg)

/-- Settles O25: the reset wipes out every difference between the two frames but the readings, which no command
reads. -/
theorem discardPathsLookAlike : Obligations.DiscardPathsLookAlike := by
  unfold Obligations.DiscardPathsLookAlike
  intro s₁ s₂ t₁ t₂ d rest hsafe₁ hsafe₂ hcfg₁ hcfg₂ hexp hbuild hp₁ hp₂ hd hstep₁ hstep₂
  obtain rfl := Host.Outcome.next.inj ((step_of_enEdge s₁ d rest hcfg₁ hp₁ hd).symm.trans hstep₁)
  obtain rfl := Host.Outcome.next.inj ((step_of_enEdge s₂ d rest hcfg₂ hp₂ hd).symm.trans hstep₂)
  have halike := afterEnEdge_eq s₁ s₂ hsafe₁ hsafe₂ hcfg₁ hcfg₂ hexp hbuild d rest
  refine ⟨halike, ((congrArg step halike).trans (step_of_dispatch _ _)).symm,
    { cleared_afterEnEdge (deliver d rest s₁) with }, rfl, fun hbad => ?_, fun hmode => ?_⟩
  · simp [frameReading_of_malformed s₁ hbad]
  · simp [frameReading_of_no_mode s₁ hmode]

/-! ### The frame law (R139) -/

/-- A run goes on from where its first steps ended, with the readings in order. -/
theorem runReadings_add (m n : Nat) (s t : State) (rs : List Reading) (h : runReadings m s = some (rs, t)) :
    runReadings (m + n) s = (runReadings n t).map fun r => (rs ++ r.1, r.2) := by
  induction m generalizing s rs with
  | zero =>
    obtain ⟨rfl, rfl⟩ := Prod.mk.inj (Option.some.inj h)
    simp
  | succ m ih =>
    obtain ⟨u, hu⟩ := step_total s
    rw [runReadings_succ m s u hu] at h
    obtain ⟨⟨rs', t'⟩, hrun, heq⟩ := Option.map_eq_some_iff.mp h
    obtain ⟨rfl, rfl⟩ := Prod.mk.inj heq
    rw [Nat.add_right_comm, runReadings_succ _ s u hu, ih u rs' hrun, Option.map_map]
    simp [Function.comp_def, List.append_assoc]

theorem runReadings_one (s t : State) (h : step s = .next t) : runReadings 1 s = some (t.dispatch, t) := by
  rw [runReadings_succ 0 s t h, runReadings, Option.map_some, List.append_nil]

/-- Too few bits leave the cursor short of `EXP`, too many set the flag. -/
theorem Accumulated.frameReading_of_length_ne {bits : List Bool} {u : State} (h : Accumulated bits u)
    (hlen : bits.length ≠ u.exp.toNat) : frameReading u = none := by
  refine frameReading_of_malformed u ?_
  rcases Nat.lt_or_gt_of_ne hlen with hshort | hlong
  · refine .inr fun heq => ?_
    have hcursor := h.cursor
    rw [heq] at hcursor
    omega
  · exact .inl (h.ovf.trans (decide_eq_true hlong))

/-- Of exactly `EXP` bits the decoder reads nothing else, because every field lies in the frame (00_scope.md R8). -/
theorem Accumulated.frameReading_of_length_eq {bits : List Bool} {u : State} (h : Accumulated bits u)
    (hfit : frameFit u.build u.exp = true) (hlen : bits.length = u.exp.toNat) :
    frameReading u = decodeFrame u.build fun p => bits.getD p false := by
  have hcursor : u.cursor = u.exp := BitVec.eq_of_toNat_eq (by rw [h.cursor, hlen, Nat.min_self])
  have hovf : u.ovf = false := h.ovf.trans (decide_eq_false (by omega))
  rw [frameReading_of_complete u hovf hcursor]
  refine (readingDependsOnItsFieldsOnly u.build _ _).1 fun p hp => ?_
  have hframe : p < u.exp.toNat := (frameFitBoundsEveryField u.build u.exp).mp hfit p hp
  have hwindow := exp_add_seven_le_storeBits u.exp
  rw [h.window p (by omega), windowBit, if_pos hframe]

/-- Settles O26: the clock edges accumulate their bits and emit nothing, and the enable edge emits the reading of what
is accumulated. -/
theorem frameLaw : Obligations.FrameLaw := by
  unfold Obligations.FrameLaw
  intro s bits level rest hsafe hcfg hcursor hpending
  have hpushes : List.Forall₂ Delivery.Pushes (bits.map fun v => ⟨0x70000000, v⟩) bits := by
    rw [List.forall₂_map_left_iff, List.forall₂_same]
    exact fun v _ => .inr ⟨decode_encode .clkEdge, rfl⟩
  obtain ⟨u, hrun, hacc, hrest, hexp, hbuild⟩ :=
    runReadings_of_pushes hpushes _ [] s (accumulated_nil s hsafe hcfg hcursor) hpending
  rw [List.length_map] at hrun
  rw [List.nil_append] at hacc
  have henable := runReadings_one u _ (step_of_enEdge u _ rest hacc.cfg hrest (decode_encode .enEdge))
  refine ⟨(frameReading u).toList, afterEnEdge (deliver ⟨0x80000000, level⟩ rest u), ?_, rfl, rfl, rfl,
    fun hlen => ?_, fun hlen => ?_⟩
  · rw [runReadings_add _ 1 s u [] hrun, henable]
    rfl
  · rw [hacc.frameReading_of_length_ne (hexp ▸ hlen), Option.toList_none]
  · obtain ⟨_, _, hfit⟩ := hsafe.length hcfg
    rw [← hexp] at hlen hfit
    rw [← hbuild] at hfit ⊢
    rw [hacc.frameReading_of_length_eq hfit hlen]

end Sys2Proof.Machine
end

section
/-! PROOFS. The field extractor statements (42_mode_exponent.md): the truth table of the mode (R150, R154), the mode no
reading carries (R152), and the scale exponent (R153). -/

namespace Sys2Proof.Machine

/-! ### The mode that a flag decides (R150) -/

section
variable {b : Build} {bit : Nat → Bool}

theorem resolveMode_of_offV (hv : bit b.offV = true) :
    resolveMode b bit = some (if bit b.offAC then .voltageAC else .voltageDC) := by
  rw [resolveMode, if_pos hv, apply_ite some]

theorem resolveMode_of_offI (hv : bit b.offV = false) (hi : bit b.offI = true) :
    resolveMode b bit = some (if bit b.offAC then .currentAC else .currentDC) := by
  rw [resolveMode, if_neg (by simp [hv]), if_pos hi, apply_ite some]

/-- Where neither V nor I decides, the AC flag does not occur (42_mode_exponent.md R151). -/
theorem resolveMode_of_neither_offV_nor_offI (hv : bit b.offV = false) (hi : bit b.offI = false) :
    resolveMode b bit =
      if bit b.offR then some .resistance else if bit b.offT then some .temperature else none := by
  rw [resolveMode, if_neg (by simp [hv]), if_neg (by simp [hi])]

end

/-- Settles O40: the V and I rows by the AC flag, the others by R and T alone. -/
theorem modeTruthTable : Obligations.ModeTruthTable := by
  unfold Obligations.ModeTruthTable
  intro b bit
  refine ⟨fun hv hac => ?_, fun hv hac => ?_, fun hv hi hac => ?_, fun hv hi hac => ?_, fun hv hi hr => ?_,
    fun hv hi hr ht => ?_, fun hv hi hr ht => ?_⟩
  · simp [resolveMode_of_offV hv, hac]
  · simp [resolveMode_of_offV hv, hac]
  · simp [resolveMode_of_offI hv hi, hac]
  · simp [resolveMode_of_offI hv hi, hac]
  · simp [resolveMode_of_neither_offV_nor_offI hv hi, hr]
  · simp [resolveMode_of_neither_offV_nor_offI hv hi, hr, ht]
  · simp [resolveMode_of_neither_offV_nor_offI hv hi, hr, ht]

/-! ### The mode no reading carries (R152) -/

theorem resolveMode_ne_unknown (b : Build) (bit : Nat → Bool) : resolveMode b bit ≠ some .unknown := by
  cases hv : bit b.offV with
  | true =>
    rw [resolveMode_of_offV hv]
    split <;> simp
  | false =>
    cases hi : bit b.offI with
    | true =>
      rw [resolveMode_of_offI hv hi]
      split <;> simp
    | false =>
      rw [resolveMode_of_neither_offV_nor_offI hv hi]
      split_ifs <;> simp

/-- The codes of the modes a reading may carry (30_encoding.md R73): 6 is `Unknown`'s, and 7 is no mode's. -/
theorem Mode.code_le_of_ne_unknown (mode : Mode) (h : mode ≠ .unknown) : mode.code.toNat ≤ 5 := by
  cases mode with
  | unknown => exact absurd rfl h
  | _ => decide

/-- Settles O42: an emitted reading has the mode that the flags of its frame resolve to, and its record has that mode's
code. -/
theorem unknownModeIsNeverEmitted : Obligations.UnknownModeIsNeverEmitted := by
  unfold Obligations.UnknownModeIsNeverEmitted
  intro s t r hstep hr
  obtain ⟨mode, hmode, hreading⟩ := readingOf_of_mem_dispatch s t r hstep hr
  have hrmode : r.mode = mode := congrArg Reading.mode hreading
  have hknown : r.mode ≠ .unknown := fun hunknown =>
    resolveMode_ne_unknown s.build s.bitRead (hmode.trans (congrArg some (hrmode.symm.trans hunknown)))
  obtain ⟨_, _, _, hcode, _⟩ := r.record_fields
  exact ⟨hknown, (congrArg BitVec.toNat hcode).trans_le (r.mode.code_le_of_ne_unknown hknown)⟩

/-! ### The scale exponent (R153) -/

/-- Settles O41: the flags before the first set one are passed over, in the listed order. -/
theorem scaleExponentTakesTheFirstFlag : Obligations.ScaleExponentTakesTheFirstFlag := by
  unfold Obligations.ScaleExponentTakesTheFirstFlag
  intro b bit
  refine ⟨fun hx6 => ?_, fun hx6 hx3 => ?_, fun hx6 hx3 hxm3 => ?_, fun hx6 hx3 hxm3 hxm6 => ?_,
    fun hx6 hx3 hxm3 hxm6 => ?_⟩
  · simp [scaleExponent, hx6]
  · simp [scaleExponent, hx6, hx3]
  · simp [scaleExponent, hx6, hx3, hxm3]
  · simp [scaleExponent, hx6, hx3, hxm3, hxm6]
  · simp [scaleExponent, hx6, hx3, hxm3, hxm6]

end Sys2Proof.Machine
end

section
/-! PROOFS. The segment decoder statements (43_segment_digits.md): the lookup (R170), the two forms of a symbol (R171),
what a symbol contributes (R172), and the primary scan with its overload stop (R174 to R177). -/

namespace Sys2Proof

/-! ### The build-time check of the table (30_encoding.md R72) -/

theorem Symbol.mem_all (sym : Symbol) : sym ∈ Symbol.all := by
  cases sym with
  | digit d => exact (by decide : ∀ d : Fin 10, Symbol.digit d ∈ Symbol.all) d
  | ol => decide

theorem segTableWellFormed_iff (t : List SegEntry) :
    segTableWellFormed t = true ↔
      t.length = 22 ∧ (t.map Prod.fst).Nodup ∧ ∀ sym, twoFormsOneBitApart (formsOf t sym) = true := by
  simp [segTableWellFormed, Symbol.mem_all, and_assoc]

theorem mem_formsOf (t : List SegEntry) (sym : Symbol) (p : Byte) : p ∈ formsOf t sym ↔ (p, sym) ∈ t := by
  simp [formsOf]

theorem SegTable.patterns_nodup (t : SegTable) : (t.entries.map Prod.fst).Nodup := by
  obtain ⟨_, hnodup, _⟩ := (segTableWellFormed_iff t.entries).mp t.wellFormed
  exact hnodup

theorem SegTable.formsOf_eq_pair (t : SegTable) (sym : Symbol) :
    ∃ p q, formsOf t.entries sym = [p, q] ∧ differInOneBit p q = true := by
  obtain ⟨_, _, htwo⟩ := (segTableWellFormed_iff t.entries).mp t.wellFormed
  have hforms := htwo sym
  unfold twoFormsOneBitApart at hforms
  split at hforms
  case h_1 p q hpair => exact ⟨p, q, hpair, hforms⟩
  case h_2 => exact absurd hforms Bool.false_ne_true

/-- Two patterns that differ in one bit are each other with that bit inverted. -/
theorem eq_xor_of_differInOneBit (p q : Byte) (h : differInOneBit p q = true) :
    ∃ k, k < 8 ∧ q = p ^^^ (1#8 <<< k) := by
  obtain ⟨k, hk⟩ := List.length_eq_one_iff.mp (beq_iff_eq.mp h)
  have hdiffer : ∀ i, i < 8 ∧ p.getLsbD i ≠ q.getLsbD i ↔ i = k := fun i => by
    simpa using (congrArg (i ∈ ·) hk).to_iff
  have hk8 : k < 8 := ((hdiffer k).mpr rfl).1
  refine ⟨k, hk8, BitVec.eq_of_getLsbD_eq fun i hi => ?_⟩
  rw [← BitVec.twoPow_eq, BitVec.getLsbD_xor, BitVec.getLsbD_twoPow, decide_eq_true hk8, Bool.true_and]
  by_cases hik : i = k
  · have hinverted : q.getLsbD i = !p.getLsbD i := Bool.eq_not.mpr ((hdiffer i).mpr hik).2.symm
    rw [decide_eq_true hik.symm, Bool.xor_true, hinverted]
  · have hsame : p.getLsbD i = q.getLsbD i := not_not.mp fun hne => hik ((hdiffer i).mp ⟨hi, hne⟩)
    rw [decide_eq_false (Ne.symm hik), Bool.xor_false, hsame]

end Sys2Proof

namespace Sys2Proof.Machine

/-! ### The lookup (R170) -/

/-- A code in no pair gives `NONE`. -/
theorem segLookup_eq_none_iff (t : SegTable) (code : Byte) :
    segLookup t code = none ↔ ∀ e ∈ t.entries, e.1 ≠ code := by
  simp [segLookup]

theorem mem_of_segLookup {t : SegTable} {code : Byte} {sym : Symbol} (h : segLookup t code = some sym) :
    (code, sym) ∈ t.entries := by
  obtain ⟨e, hfind, rfl⟩ := Option.map_eq_some_iff.mp h
  have hcode : e.1 = code := by simpa using List.find?_some hfind
  exact hcode ▸ List.mem_of_find?_eq_some hfind

/-- The patterns are pairwise distinct (30_encoding.md R72), so the pair the lookup stops at is the code's only one. -/
theorem segLookup_eq_some_iff (t : SegTable) (code : Byte) (sym : Symbol) :
    segLookup t code = some sym ↔ (code, sym) ∈ t.entries := by
  refine ⟨mem_of_segLookup, fun hmem => ?_⟩
  cases hfound : segLookup t code with
  | none => exact absurd rfl ((segLookup_eq_none_iff t code).mp hfound _ hmem)
  | some found =>
    have hpair : (code, found) = (code, sym) :=
      List.inj_on_of_nodup_map t.patterns_nodup (mem_of_segLookup hfound) hmem rfl
    rw [(Prod.mk.inj hpair).2]

/-- Settles O43: by distinct patterns the first pair with a code is its only one. -/
theorem segLookupFindsEveryEntry : Obligations.SegLookupFindsEveryEntry := by
  unfold Obligations.SegLookupFindsEveryEntry
  intro t
  exact ⟨fun e he => (segLookup_eq_some_iff t e.1 e.2).mpr he, fun code => (segLookup_eq_none_iff t code).mpr⟩

/-! ### The two forms of a symbol (R171) -/

/-- Settles O44: a symbol's two forms are the codes the table pairs with it. -/
theorem everySymbolHasTwoForms : Obligations.EverySymbolHasTwoForms := by
  unfold Obligations.EverySymbolHasTwoForms
  intro t sym
  obtain ⟨p, q, hforms, hdiffer⟩ := t.formsOf_eq_pair sym
  obtain ⟨k, hk, hq⟩ := eq_xor_of_differInOneBit p q hdiffer
  refine ⟨p, q, k, hk, hq, fun code => ?_⟩
  rw [segLookup_eq_some_iff, ← mem_formsOf, hforms, List.mem_pair]

/-! ### The primary scan (R172, R174 to R177) -/

/-- Settles O46: the three lines of the rule. -/
theorem digitValueIsTolerant : Obligations.DigitValueIsTolerant := by
  unfold Obligations.DigitValueIsTolerant
  exact ⟨fun _ => rfl, rfl, rfl⟩

section
variable {b : Build} {bit : Nat → Bool}

/-- Digits 0 to 2: the flag is a decimal point and never a sign (43_segment_digits.md R176, R177). -/
theorem scanDigit_of_ne_three {i : Fin 4} (a : Scan) (hi : i ≠ 3) :
    scanDigit b bit i a =
      { a with
        n := a.n + digitValue (primarySymbol b bit i) * 10 ^ i.val
        shift := a.shift + if bit b.offDot[i] then -((i.val : Int) + 1) else 0 } := by
  simp only [scanDigit]
  cases bit b.offDot[i] <;> simp [hi, Int.sub_eq_add_neg]

/-- Digit 3: the flag is the sign and never a decimal point (43_segment_digits.md R177). -/
theorem scanDigit_three (a : Scan) :
    scanDigit b bit 3 a =
      { a with n := a.n + digitValue (primarySymbol b bit 3) * 1000, neg := bit b.offDot[(3 : Fin 4)] } := by
  simp [scanDigit]

/-- Without `OL` at index 1 nothing stops the loop. -/
theorem scanFrom_eq_foldl (hol : primarySymbol b bit 1 ≠ some .ol) (is : List (Fin 4)) (a : Scan) :
    scanFrom b bit is a = is.foldl (fun a i => scanDigit b bit i a) a := by
  induction is generalizing a with
  | nil => rfl
  | cons i is ih =>
    have hgo : ¬(i = 1 ∧ primarySymbol b bit i = some .ol) := by
      rintro ⟨rfl, hstop⟩
      exact hol hstop
    rw [scanFrom, if_neg hgo, ih, List.foldl_cons]

theorem scanPrimary_of_ne_ol (hol : primarySymbol b bit 1 ≠ some .ol) :
    scanPrimary b bit =
      scanDigit b bit 3 (scanDigit b bit 2 (scanDigit b bit 1 (scanDigit b bit 0 ⟨false, 0, 0, false⟩))) :=
  scanFrom_eq_foldl hol _ _

/-- The overload stop (43_segment_digits.md R175). -/
theorem scanPrimary_of_eq_ol (hol : primarySymbol b bit 1 = some .ol) :
    scanPrimary b bit = { scanDigit b bit 0 ⟨false, 0, 0, false⟩ with ovl := true } := by
  rw [scanPrimary, scanFrom, if_neg fun hone => absurd hone.1 (by decide), scanFrom, if_pos ⟨rfl, hol⟩]

end

/-- Settles O45: unless digit 1 is `OL` the scan is a pass over the four digits; if it is, a pass over digit 0. -/
theorem primaryScan : Obligations.PrimaryScan := by
  unfold Obligations.PrimaryScan
  intro b bit
  refine ⟨fun hgo => ?_, fun hol => ?_⟩
  · rw [scanPrimary_of_ne_ol hgo, scanDigit_three]
    simp [scanDigit_of_ne_three, primarySymbol]
  · rw [scanPrimary_of_eq_ol hol]
    simp [scanDigit_of_ne_three, primarySymbol]

end Sys2Proof.Machine
end

section
/-! PROOFS. The value composition statements (44_value_composition.md), first what their conversion rests on: that
`rnd64` gives the nearest binary64 value, ties to even (00_scope.md R14), on the normal range. -/

namespace Sys2Proof.Machine

/-! ### Powers of a radix as fractions of natural numbers -/

/-- The model writes a power with a signed exponent as a fraction of two natural numbers. -/
theorem pow_toNat_div_pow_toNat_neg {r : ℚ} (hr : r ≠ 0) (t : Int) : r ^ t.toNat / r ^ (-t).toNat = r ^ t := by
  rw [← zpow_natCast, ← zpow_natCast, ← zpow_sub₀ hr, Int.toNat_sub_toNat_neg]

/-! ### The binary exponent of a fraction -/

theorem two_zpow_log2_le {n : Nat} (hn : 0 < n) : (2 : ℚ) ^ (n.log2 : Int) ≤ n := by
  rw [zpow_natCast]
  exact_mod_cast Nat.log2_self_le hn.ne'

theorem lt_two_zpow_log2_add_one (n : Nat) : (n : ℚ) < 2 ^ ((n.log2 : Int) + 1) := by
  rw [← Nat.cast_succ, zpow_natCast]
  exact_mod_cast Nat.lt_log2_self

section
variable {num den : Nat} (hnum : 0 < num) (hden : 0 < den)
include hden

/-- The comparison by which `floorLog2` chooses, on the fraction. -/
theorem den_mul_le_num_mul_iff (t : Int) :
    den * 2 ^ t.toNat ≤ num * 2 ^ (-t).toNat ↔ (2 : ℚ) ^ t ≤ (num : ℚ) / den := by
  rw [← pow_toNat_div_pow_toNat_neg two_ne_zero t, div_le_div_iff₀ (by positivity) (by positivity), mul_comm den]
  exact_mod_cast Iff.rfl

include hnum

/-- `floorLog2` brackets the fraction between two successive powers of 2. -/
theorem floorLog2_spec :
    (2 : ℚ) ^ floorLog2 num den ≤ (num : ℚ) / den ∧ (num : ℚ) / den < 2 ^ (floorLog2 num den + 1) := by
  have hden' : (0 : ℚ) < den := Nat.cast_pos.mpr hden
  set t : Int := (num.log2 : Int) - den.log2 with ht
  have hupper : (num : ℚ) / den < 2 ^ (t + 1) := by
    have hden2 := two_zpow_log2_le hden
    have hnum2 := lt_two_zpow_log2_add_one num
    rw [div_lt_iff₀ hden']
    calc (num : ℚ) < 2 ^ ((num.log2 : Int) + 1) := hnum2
      _ = 2 ^ (t + 1) * 2 ^ (den.log2 : Int) := by rw [← zpow_add₀ two_ne_zero, ht]; congr 1; ring
      _ ≤ 2 ^ (t + 1) * den := by gcongr
  have hlower : (2 : ℚ) ^ (t - 1) ≤ (num : ℚ) / den := by
    have hnum2 := two_zpow_log2_le hnum
    have hden2 := lt_two_zpow_log2_add_one den
    rw [le_div_iff₀ hden']
    calc (2 : ℚ) ^ (t - 1) * den ≤ 2 ^ (t - 1) * 2 ^ ((den.log2 : Int) + 1) := by gcongr
      _ = 2 ^ (num.log2 : Int) := by rw [← zpow_add₀ two_ne_zero, ht]; congr 1; ring
      _ ≤ num := hnum2
  have hfloor : floorLog2 num den = if den * 2 ^ t.toNat ≤ num * 2 ^ (-t).toNat then t else t - 1 := rfl
  rw [hfloor]
  split
  case isTrue h => exact ⟨(den_mul_le_num_mul_iff hden t).mp h, hupper⟩
  case isFalse h =>
    rw [den_mul_le_num_mul_iff hden t, not_le] at h
    exact ⟨hlower, by rwa [sub_add_cancel]⟩

theorem le_floorLog2 {a : Int} (h : (2 : ℚ) ^ a ≤ (num : ℚ) / den) : a ≤ floorLog2 num den := by
  obtain ⟨_, hlt⟩ := floorLog2_spec hnum hden
  exact Int.le_of_lt_add_one ((zpow_lt_zpow_iff_right₀ one_lt_two).mp (h.trans_lt hlt))

theorem floorLog2_lt {a : Int} (h : (num : ℚ) / den < 2 ^ a) : floorLog2 num den < a := by
  obtain ⟨hle, _⟩ := floorLog2_spec hnum hden
  exact (zpow_lt_zpow_iff_right₀ one_lt_two).mp (hle.trans_lt h)

end

/-! ### Rounding to an integer -/

/-- The rounded quotient is within half a divisor of the dividend, and at exactly half only where it is even. -/
theorem roundEven_bounds {den : Nat} (hden : 0 < den) (num : Nat) :
    2 * (den * roundEven num den) ≤ 2 * num + den ∧ 2 * num ≤ 2 * (den * roundEven num den) + den ∧
      (2 * (den * roundEven num den) = 2 * num + den ∨ 2 * num = 2 * (den * roundEven num den) + den →
        Even (roundEven num den)) := by
  have hround : roundEven num den =
      if den < 2 * (num % den) ∨ (2 * (num % den) = den ∧ num / den % 2 = 1) then num / den + 1 else num / den := rfl
  have hdiv := Nat.div_add_mod num den
  have hmod := Nat.mod_lt num hden
  rw [hround, Nat.even_iff]
  split
  case isTrue hup =>
    rw [Nat.mul_add_one]
    omega
  case isFalse hdown => omega

@[simp] theorem roundEven_one (n : Nat) : roundEven n 1 = n := by simp [roundEven, Nat.mod_one]

theorem abs_roundEven_sub_le {den : Nat} (hden : 0 < den) (num : Nat) :
    |(roundEven num den : ℚ) - num / den| ≤ 1 / 2 := by
  have hden' : (0 : ℚ) < den := Nat.cast_pos.mpr hden
  obtain ⟨hle, hge, _⟩ := roundEven_bounds hden num
  have hle' : 2 * (den * (roundEven num den : ℚ)) ≤ 2 * num + den := mod_cast hle
  have hge' : 2 * (num : ℚ) ≤ 2 * (den * roundEven num den) + den := mod_cast hge
  rw [sub_div' hden'.ne', abs_div, abs_of_pos hden', div_le_iff₀ hden', abs_le]
  constructor <;> linarith

theorem even_roundEven_of_abs_sub_eq {den : Nat} (hden : 0 < den) (num : Nat)
    (h : |(roundEven num den : ℚ) - num / den| = 1 / 2) : Even (roundEven num den) := by
  have hden' : (0 : ℚ) < den := Nat.cast_pos.mpr hden
  obtain ⟨_, _, heven⟩ := roundEven_bounds hden num
  rw [sub_div' hden'.ne', abs_div, abs_of_pos hden', div_eq_iff hden'.ne', abs_eq (by positivity)] at h
  apply heven
  rcases h with h | h
  · exact .inl (by exact_mod_cast (by linarith : 2 * (den * (roundEven num den : ℚ)) = 2 * num + den))
  · exact .inr (by exact_mod_cast (by linarith : 2 * (num : ℚ) = 2 * (den * roundEven num den) + den))

/-- Another integer is at least a half away from the fraction, since it is at least 1 away from the rounded one. -/
theorem half_le_abs_sub {q k : Int} (hne : k ≠ q) {x : ℚ} (hq : |(q : ℚ) - x| ≤ 1 / 2) : 1 / 2 ≤ |(k : ℚ) - x| := by
  have hone : (1 : ℚ) ≤ |(k : ℚ) - q| := mod_cast Int.one_le_abs (sub_ne_zero.mpr hne)
  have htri := abs_sub_le (k : ℚ) x q
  rw [abs_sub_comm x] at htri
  linarith

/-- No integer is nearer to the fraction, and one as near leaves the even one to be chosen. -/
theorem roundEven_nearest {den : Nat} (hden : 0 < den) (num : Nat) (k : Int) :
    |(roundEven num den : ℚ) - num / den| ≤ |(k : ℚ) - num / den| ∧
      (|(roundEven num den : ℚ) - num / den| = |(k : ℚ) - num / den| → k ≠ roundEven num den →
        Even (roundEven num den)) := by
  have hhalf := abs_roundEven_sub_le hden num
  by_cases hk : k = roundEven num den
  · exact ⟨by simp [hk], fun _ hne => absurd hk hne⟩
  · have hfar : 1 / 2 ≤ |(k : ℚ) - num / den| := half_le_abs_sub hk (mod_cast hhalf)
    exact ⟨hhalf.trans hfar, fun heq _ => even_roundEven_of_abs_sub_eq hden num (le_antisymm hhalf (heq ▸ hfar))⟩

theorem le_roundEven {den : Nat} (hden : 0 < den) {num a : Nat} (h : (a : ℚ) ≤ num / den) : a ≤ roundEven num den := by
  obtain ⟨hnear, _⟩ := roundEven_nearest hden num a
  rw [Int.cast_natCast, abs_of_nonpos (sub_nonpos.mpr h), abs_le] at hnear
  exact_mod_cast (by linarith : (a : ℚ) ≤ roundEven num den)

theorem roundEven_le {den : Nat} (hden : 0 < den) {num a : Nat} (h : (num : ℚ) / den ≤ a) : roundEven num den ≤ a := by
  obtain ⟨hnear, _⟩ := roundEven_nearest hden num a
  rw [Int.cast_natCast, abs_of_nonneg (sub_nonneg.mpr h), abs_le] at hnear
  exact_mod_cast (by linarith : (roundEven num den : ℚ) ≤ a)

/-! ### The value of a pattern -/

theorem expField_neg64 (v : F64) : expField (neg64 v) = expField v := by
  simp [expField, neg64, BitVec.extractLsb'_xor]

theorem fracField_neg64 (v : F64) : fracField (neg64 v) = fracField v := by
  simp [fracField, neg64, BitVec.extractLsb'_xor]

theorem signBit_neg64 (v : F64) : (neg64 v).getLsbD 63 = !v.getLsbD 63 := by
  simp [neg64]

theorem value64_neg64 (v : F64) : value64 (neg64 v) = -value64 v := by
  simp only [value64, expField_neg64, fracField_neg64, signBit_neg64]
  cases v.getLsbD 63 with
  | false => simp only [Bool.not_false, Bool.false_eq_true, if_true, if_false]; ring
  | true => simp only [Bool.not_true, Bool.false_eq_true, if_true, if_false]; ring

theorem fracField_lt (v : F64) : fracField v < 2 ^ 52 := (v.extractLsb' 0 52).isLt

/-- A value is an integer of at most 53 bits at the weight of its last place. -/
theorem value64_eq_intCast_mul (v : F64) :
    ∃ k : Int, |k| < 2 ^ 53 ∧ value64 v = k * 2 ^ ((max (expField v) 1 : Int) - 1075) := by
  have hfrac := fracField_lt v
  refine ⟨(if v.getLsbD 63 then -1 else 1) * ((if expField v = 0 then 0 else 2 ^ 52) + fracField v), ?_, ?_⟩
  · split_ifs <;> rw [abs_lt] <;> omega
  · rw [value64]
    push_cast
    rfl

/-- A value that reaches a power of 2 is on the grid of the last place there. -/
theorem value64_on_grid_or_lt (v : F64) (e : Int) :
    (∃ k : Int, value64 v = k * 2 ^ (e - 52)) ∨ |value64 v| < 2 ^ e := by
  obtain ⟨k, hk, hvalue⟩ := value64_eq_intCast_mul v
  set p : Int := (max (expField v) 1 : Int) - 1075
  rcases le_or_gt (e - 52) p with hp | hp
  · refine .inl ⟨k * 2 ^ (p - (e - 52)).toNat, ?_⟩
    rw [hvalue]
    push_cast
    rw [← zpow_natCast, Int.toNat_of_nonneg (by omega), mul_assoc, ← zpow_add₀ two_ne_zero, sub_add_cancel]
  · right
    have hk' : |(k : ℚ)| < 2 ^ 53 := mod_cast hk
    calc |value64 v| = |(k : ℚ)| * 2 ^ p := by rw [hvalue, abs_mul, abs_of_pos (a := (2 : ℚ) ^ p) (by positivity)]
      _ < 2 ^ 53 * 2 ^ p := by gcongr
      _ = 2 ^ (53 + p) := by rw [zpow_add₀ two_ne_zero]; norm_cast
      _ ≤ 2 ^ e := zpow_le_zpow_right₀ one_le_two (by omega)

/-- The pattern of a normal number with the biased exponent `b + 1` and the significand `m`; the hidden bit of `m` is
the 1 that the exponent field lacks, and `m = 2^53` carries into it. -/
def normalPattern (b m : Nat) : F64 := BitVec.ofNat 64 (b * 2 ^ 52 + m)

theorem normalPattern_toNat {b m : Nat} (hb : b ≤ 2044) (hm : m ≤ 2 ^ 53) :
    (normalPattern b m).toNat = b * 2 ^ 52 + m := by
  rw [normalPattern, BitVec.toNat_ofNat, Nat.mod_eq_of_lt (by omega)]

theorem expField_eq (v : F64) : expField v = v.toNat / 2 ^ 52 % 2 ^ 11 := by
  rw [expField, BitVec.extractLsb'_toNat, Nat.shiftRight_eq_div_pow]

theorem fracField_eq (v : F64) : fracField v = v.toNat % 2 ^ 52 := by
  rw [fracField, BitVec.extractLsb'_toNat, Nat.shiftRight_zero]

theorem signBit_normalPattern {b m : Nat} (hb : b ≤ 2044) (hm : m ≤ 2 ^ 53) :
    (normalPattern b m).getLsbD 63 = false := by
  rw [BitVec.getLsbD, normalPattern_toNat hb hm]
  exact Nat.testBit_lt_two_pow (by omega)

theorem lastBit_normalPattern {b m : Nat} (hb : b ≤ 2044) (hm : m ≤ 2 ^ 53) (heven : Even m) :
    (normalPattern b m).getLsbD 0 = false := by
  rw [Nat.even_iff] at heven
  rw [BitVec.getLsbD, normalPattern_toNat hb hm, Nat.testBit_zero, decide_eq_false_iff_not]
  omega

theorem normalPattern_fields {b m : Nat} (hb : b ≤ 2044) (hlow : 2 ^ 52 ≤ m) (hhigh : m < 2 ^ 53) :
    expField (normalPattern b m) = b + 1 ∧ fracField (normalPattern b m) = m - 2 ^ 52 := by
  rw [expField_eq, fracField_eq, normalPattern_toNat hb hhigh.le]
  omega

theorem normalPattern_carry_fields {b : Nat} (hb : b ≤ 2044) :
    expField (normalPattern b (2 ^ 53)) = b + 2 ∧ fracField (normalPattern b (2 ^ 53)) = 0 := by
  rw [expField_eq, fracField_eq, normalPattern_toNat hb le_rfl]
  omega

theorem expField_normalPattern_bounds {b m : Nat} (hb : b ≤ 2044) (hlow : 2 ^ 52 ≤ m) (hhigh : m ≤ 2 ^ 53) :
    b + 1 ≤ expField (normalPattern b m) ∧ expField (normalPattern b m) ≤ b + 2 := by
  rw [expField_eq, normalPattern_toNat hb hhigh]
  omega

theorem value64_normalPattern {b m : Nat} (hb : b ≤ 2044) (hlow : 2 ^ 52 ≤ m) (hhigh : m ≤ 2 ^ 53) :
    value64 (normalPattern b m) = m * 2 ^ ((b : Int) - 1074) := by
  have hsign := signBit_normalPattern hb hhigh
  rcases hhigh.lt_or_eq with hlt | rfl
  · obtain ⟨hexp, hfrac⟩ := normalPattern_fields hb hlow hlt
    have hplace : max ((b + 1 : ℕ) : Int) 1 - 1075 = (b : Int) - 1074 := by omega
    rw [value64, hsign, hexp, hfrac, hplace, if_neg b.succ_ne_zero, if_neg Bool.false_ne_true, Nat.cast_sub hlow]
    norm_num
  · obtain ⟨hexp, hfrac⟩ := normalPattern_carry_fields hb
    have hplace : max ((b + 2 : ℕ) : Int) 1 - 1075 = (b : Int) - 1074 + 1 := by omega
    rw [value64, hsign, hexp, hfrac, hplace, zpow_add_one₀ two_ne_zero]
    norm_num
    ring

/-! ### The rounded fraction -/

/-- The fraction in units of the last place of a significand whose power of 2 is `e`, as `rnd64` divides it out. -/
theorem scaled_fraction (num den : Nat) (e : Int) :
    ((num * 2 ^ (52 - e).toNat : ℕ) : ℚ) / (den * 2 ^ (e - 52).toNat : ℕ) = num / den * 2 ^ (52 - e) := by
  have hneg : e - 52 = -(52 - e) := by ring
  rw [hneg]
  push_cast
  rw [mul_div_mul_comm, pow_toNat_div_pow_toNat_neg two_ne_zero]

/-- A distance from the fraction, in units of that last place. -/
theorem abs_mul_place_sub (num den : Nat) (e : Int) (k : ℚ) :
    |k * 2 ^ (e - 52) - num / den| =
      |k - (num * 2 ^ (52 - e).toNat : ℕ) / (den * 2 ^ (e - 52).toNat : ℕ)| * 2 ^ (e - 52) := by
  have hunit : (0 : ℚ) < 2 ^ (e - 52) := by positivity
  rw [scaled_fraction, ← abs_of_pos hunit, ← abs_mul, abs_of_pos hunit, sub_mul, mul_assoc,
    ← zpow_add₀ two_ne_zero, sub_add_sub_cancel, sub_self, zpow_zero, mul_one]

theorem two_pow_52_mul_place (e : Int) : (2 : ℚ) ^ 52 * 2 ^ (e - 52) = 2 ^ e := by
  rw [← zpow_natCast, ← zpow_add₀ two_ne_zero, Nat.cast_ofNat, add_sub_cancel]

/-- The rounded significand of `rnd64`, in the normal range. -/
def significand (num den : Nat) : Nat :=
  roundEven (num * 2 ^ (52 - floorLog2 num den).toNat) (den * 2 ^ (floorLog2 num den - 52).toNat)

section
variable {num den : Nat} (hnum : 0 < num) (hden : 0 < den)
include hnum hden

theorem significand_bounds : 2 ^ 52 ≤ significand num den ∧ significand num den ≤ 2 ^ 53 := by
  obtain ⟨hle, hlt⟩ := floorLog2_spec hnum hden
  have hden2 : 0 < den * 2 ^ (floorLog2 num den - 52).toNat := by positivity
  have hpow : ∀ k : Int, (2 : ℚ) ^ k * 2 ^ (52 - floorLog2 num den) = 2 ^ (k + (52 - floorLog2 num den)) := fun k =>
    (zpow_add₀ two_ne_zero k _).symm
  constructor
  · apply le_roundEven hden2
    rw [scaled_fraction]
    calc ((2 ^ 52 : ℕ) : ℚ) = 2 ^ floorLog2 num den * 2 ^ (52 - floorLog2 num den) := by
          rw [hpow, add_sub_cancel]; norm_cast
      _ ≤ num / den * 2 ^ (52 - floorLog2 num den) := by gcongr
  · apply roundEven_le hden2
    rw [scaled_fraction]
    calc (num : ℚ) / den * 2 ^ (52 - floorLog2 num den)
        ≤ 2 ^ (floorLog2 num den + 1) * 2 ^ (52 - floorLog2 num den) := by gcongr
      _ = ((2 ^ 53 : ℕ) : ℚ) := by
          rw [hpow, add_right_comm, add_sub_cancel]; norm_cast

end

/-- A fraction whose nearest binary64 value is a finite normal number, below the carry into the infinities. -/
structure NormalFraction (num den : Nat) : Prop where
  num_pos : 0 < num
  den_pos : 0 < den
  low : -1022 ≤ floorLog2 num den
  high : floorLog2 num den ≤ 1022

namespace NormalFraction

variable {num den : Nat} (h : NormalFraction num den)
include h

theorem biased_exponent_le : (floorLog2 num den + 1022).toNat ≤ 2044 := by
  have hhigh := h.high
  omega

theorem rnd64_eq_normalPattern :
    rnd64 num den = normalPattern (floorLog2 num den + 1022).toNat (significand num den) := by
  obtain ⟨_, hsig⟩ := significand_bounds h.num_pos h.den_pos
  have hexp := h.biased_exponent_le
  simp only [rnd64, if_neg h.num_pos.ne', max_eq_left h.low]
  rw [← significand, min_eq_left (by omega), normalPattern]

theorem value64_rnd64 : value64 (rnd64 num den) = significand num den * 2 ^ (floorLog2 num den - 52) := by
  obtain ⟨hsig, hsig'⟩ := significand_bounds h.num_pos h.den_pos
  have hlow := h.low
  have hplace : (((floorLog2 num den + 1022).toNat : ℕ) : Int) - 1074 = floorLog2 num den - 52 := by omega
  rw [h.rnd64_eq_normalPattern, value64_normalPattern h.biased_exponent_le hsig hsig', hplace]

theorem signBit_rnd64 : (rnd64 num den).getLsbD 63 = false := by
  obtain ⟨_, hsig⟩ := significand_bounds h.num_pos h.den_pos
  rw [h.rnd64_eq_normalPattern, signBit_normalPattern h.biased_exponent_le hsig]

theorem lastBit_rnd64 (heven : Even (significand num den)) : (rnd64 num den).getLsbD 0 = false := by
  obtain ⟨_, hsig⟩ := significand_bounds h.num_pos h.den_pos
  rw [h.rnd64_eq_normalPattern, lastBit_normalPattern h.biased_exponent_le hsig heven]

theorem expField_rnd64_bounds :
    floorLog2 num den + 1023 ≤ expField (rnd64 num den) ∧ expField (rnd64 num den) ≤ floorLog2 num den + 1024 := by
  obtain ⟨hsig, hsig'⟩ := significand_bounds h.num_pos h.den_pos
  obtain ⟨hexp, hexp'⟩ :=
    expField_normalPattern_bounds (b := (floorLog2 num den + 1022).toNat) h.biased_exponent_le hsig hsig'
  have hlow := h.low
  rw [h.rnd64_eq_normalPattern]
  omega

theorem two_zpow_floorLog2_le_value64_rnd64 : (2 : ℚ) ^ floorLog2 num den ≤ value64 (rnd64 num den) := by
  obtain ⟨hsig, _⟩ := significand_bounds h.num_pos h.den_pos
  have hsig' : (2 : ℚ) ^ 52 ≤ significand num den := mod_cast hsig
  rw [h.value64_rnd64, ← two_pow_52_mul_place]
  gcongr

/-- No number on the grid of the last place is nearer to the fraction, and one as near leaves the even significand. -/
theorem rnd64_nearest_on_grid (k : Int) :
    |value64 (rnd64 num den) - num / den| ≤ |(k : ℚ) * 2 ^ (floorLog2 num den - 52) - num / den| ∧
      (|value64 (rnd64 num den) - num / den| = |(k : ℚ) * 2 ^ (floorLog2 num den - 52) - num / den| →
        k ≠ significand num den → Even (significand num den)) := by
  have hden := h.den_pos
  have hden2 : 0 < den * 2 ^ (floorLog2 num den - 52).toNat := by positivity
  obtain ⟨hnear, htie⟩ := roundEven_nearest hden2 (num * 2 ^ (52 - floorLog2 num den).toNat) k
  rw [← significand] at hnear htie
  rw [h.value64_rnd64, abs_mul_place_sub, abs_mul_place_sub]
  exact ⟨by gcongr, fun heq => htie (mul_right_cancel₀ (by positivity) heq)⟩

/-- No pattern is nearer to the fraction, and one as near leaves an even pattern: off the grid of the last place a
value lies below the fraction's power of 2, which is on the grid. -/
theorem rnd64_nearest (y : F64) :
    |value64 (rnd64 num den) - num / den| ≤ |value64 y - num / den| ∧
      (|value64 (rnd64 num den) - num / den| = |value64 y - num / den| → value64 y ≠ value64 (rnd64 num den) →
        (rnd64 num den).getLsbD 0 = false) := by
  rcases value64_on_grid_or_lt y (floorLog2 num den) with ⟨k, hk⟩ | hlt
  · obtain ⟨hnear, htie⟩ := h.rnd64_nearest_on_grid k
    rw [hk]
    refine ⟨hnear, fun heq hne => h.lastBit_rnd64 (htie heq ?_)⟩
    rintro rfl
    exact hne h.value64_rnd64.symm
  · obtain ⟨hfloor, _⟩ := floorLog2_spec h.num_pos h.den_pos
    obtain ⟨hnear, _⟩ := h.rnd64_nearest_on_grid (2 ^ 52 : ℕ)
    rw [Int.cast_natCast, Nat.cast_pow, Nat.cast_ofNat, two_pow_52_mul_place] at hnear
    have hbelow : value64 y < 2 ^ floorLog2 num den := lt_of_abs_lt hlt
    have hcloser : |value64 (rnd64 num den) - num / den| < |value64 y - num / den| :=
      calc |value64 (rnd64 num den) - num / den| ≤ |2 ^ floorLog2 num den - (num : ℚ) / den| := hnear
        _ = num / den - 2 ^ floorLog2 num den := by rw [abs_of_nonpos (sub_nonpos.mpr hfloor), neg_sub]
        _ < num / den - value64 y := by gcongr
        _ ≤ |value64 y - num / den| := by rw [abs_sub_comm]; exact le_abs_self _
    exact ⟨hcloser.le, fun heq => absurd heq hcloser.ne⟩

end NormalFraction

theorem rnd64_zero (den : Nat) : rnd64 0 den = 0#64 := by simp [rnd64]

theorem value64_zero : value64 0#64 = 0 := by
  rw [value64, expField_eq, fracField_eq]
  norm_num

/-- An integer of at most 53 bits is on the grid (44_value_composition.md R197). -/
theorem value64_rnd64_one {n : Nat} (hlt : n < 2 ^ 53) : value64 (rnd64 n 1) = n := by
  rcases n.eq_zero_or_pos with rfl | hpos
  · rw [rnd64_zero, value64_zero, Nat.cast_zero]
  · have hlow : 0 ≤ floorLog2 n 1 := le_floorLog2 hpos one_pos (by simpa using Nat.one_le_iff_ne_zero.mpr hpos.ne')
    have hhigh : floorLog2 n 1 < 53 := floorLog2_lt hpos one_pos (by simpa using mod_cast hlt)
    have hplace : (floorLog2 n 1 - 52).toNat = 0 := by omega
    have hsig : significand n 1 = n * 2 ^ (52 - floorLog2 n 1).toNat := by
      rw [significand, hplace, pow_zero, mul_one, roundEven_one]
    have hnormal : NormalFraction n 1 := ⟨hpos, one_pos, by omega, by omega⟩
    rw [hnormal.value64_rnd64, hsig]
    push_cast
    rw [← zpow_natCast, Int.toNat_of_nonneg (by omega), mul_assoc, ← zpow_add₀ two_ne_zero, sub_add_sub_cancel,
      sub_self, zpow_zero, mul_one]

end Sys2Proof.Machine
end

section
/-! PROOFS. The value composition statements, second the primary value (44_value_composition.md R190), the secondary
field (R193), and the conversion of a decimal to binary64 (R196, R197). -/

namespace Sys2Proof.Machine

/-! ### The primary value (R190) -/

/-- A value that is not overloaded is scaled and signed (44_value_composition.md R190). -/
theorem composePrimary_of_not_ovl {a : Scan} (h : a.ovl = false) (scale : Int) :
    composePrimary a scale = ⟨a.n, scale + a.shift, a.neg, primary64 a.n (scale + a.shift) a.neg⟩ := by
  simp [composePrimary, h]

/-- Settles O47: the reading's primary fields are the composed primary value's. -/
theorem primaryIsScaledAndSigned : Obligations.PrimaryIsScaledAndSigned := by
  unfold Obligations.PrimaryIsScaledAndSigned
  intro b bit mode hovl
  have hprimary := composePrimary_of_not_ovl hovl (scaleExponent b bit)
  exact ⟨hovl, congrArg Primary.mant hprimary, congrArg Primary.exp hprimary, congrArg Primary.neg hprimary, rfl⟩

/-! ### The secondary field (R193) -/

theorem secondarySum_eq (b : Build) (bit : Nat → Bool) :
    secondarySum b bit =
      digitValue (secondarySymbol b bit 0) + digitValue (secondarySymbol b bit 1) * 10 +
        digitValue (secondarySymbol b bit 2) * 100 + digitValue (secondarySymbol b bit 3) * 1000 := by
  simp [secondarySum, Nat.add_assoc]

theorem secondaryShift_eq (b : Build) (bit : Nat → Bool) :
    secondaryShift b bit =
      (if bit b.offSDot[0] then -1 else 0) + (if bit b.offSDot[1] then -2 else 0) +
        (if bit b.offSDot[2] then -3 else 0) := by
  simp [secondaryShift, Int.add_assoc]

theorem isAC_eq_true (mode : Mode) (h : mode = .voltageAC ∨ mode = .currentAC) : mode.isAC = true := by
  rcases h with rfl | rfl <;> rfl

theorem decodeSecondary_of_isAC (b : Build) (bit : Nat → Bool) (mode : Mode) (h : mode.isAC = true) :
    decodeSecondary b bit mode =
      ⟨true, secondarySum b bit, (if bit b.offSX3 then 3 else 0) + secondaryShift b bit,
        primary64 (secondarySum b bit) ((if bit b.offSX3 then 3 else 0) + secondaryShift b bit) false⟩ := by
  rw [decodeSecondary, if_pos h]

/-- Settles O48: the AC flag of the mode decides between the decoded field and the zeros. -/
theorem secondaryFieldInACModesOnly : Obligations.SecondaryFieldInACModesOnly := by
  unfold Obligations.SecondaryFieldInACModesOnly
  intro b bit mode
  refine ⟨fun hac => ?_, fun hv hi => ?_⟩
  · rw [decodeSecondary_of_isAC b bit mode (isAC_eq_true mode hac)]
    refine ⟨rfl, secondarySum_eq b bit, ?_, rfl⟩
    simp only [secondaryShift_eq, Nat.cast_ite, Nat.cast_ofNat, Nat.cast_zero, Int.add_assoc]
  · rw [decodeSecondary_of_not_isAC b bit mode (isAC_eq_false mode ⟨hv, hi⟩)]
    exact ⟨rfl, rfl, rfl, rfl⟩

/-! ### The conversion of a decimal (R196, R197) -/

theorem primary64_true (m : Nat) (e : Int) : primary64 m e true = neg64 (primary64 m e false) := by
  simp only [primary64, if_true, Bool.false_eq_true, if_false]

theorem primary64_false (m : Nat) (e : Int) :
    primary64 m e false = rnd64 (m * 10 ^ e.toNat) (10 ^ (-e).toNat) := by
  simp only [primary64, Bool.false_eq_true, if_false]

theorem primary64_zero (e : Int) : primary64 0 e false = 0#64 := by
  rw [primary64_false, zero_mul, rnd64_zero]

theorem decimal_eq_fraction (m : Nat) (e : Int) :
    ((m * 10 ^ e.toNat : ℕ) : ℚ) / (10 ^ (-e).toNat : ℕ) = m * 10 ^ e := by
  push_cast
  rw [mul_div_assoc, pow_toNat_div_pow_toNat_neg (by norm_num)]

section
variable {m : Nat} {e : Int} (hpos : 0 < m) (hm : m ≤ 9999) (he : -12 ≤ e) (he' : e ≤ 6)
include hm he'

theorem decimal_le : (m : ℚ) * 10 ^ e ≤ 9999 * 10 ^ 6 := by
  have hm' : (m : ℚ) ≤ 9999 := mod_cast hm
  have hpow : (10 : ℚ) ^ e ≤ 10 ^ (6 : Int) := zpow_le_zpow_right₀ (by norm_num) he'
  calc (m : ℚ) * 10 ^ e ≤ 9999 * 10 ^ (6 : Int) := by gcongr
    _ = 9999 * 10 ^ 6 := by norm_num

include hpos he

theorem floorLog2_decimal_bounds :
    -40 ≤ floorLog2 (m * 10 ^ e.toNat) (10 ^ (-e).toNat) ∧ floorLog2 (m * 10 ^ e.toNat) (10 ^ (-e).toNat) ≤ 33 := by
  have hnum : 0 < m * 10 ^ e.toNat := by positivity
  have hden : 0 < 10 ^ (-e).toNat := by positivity
  constructor
  · apply le_floorLog2 hnum hden
    rw [decimal_eq_fraction]
    have hm' : (1 : ℚ) ≤ m := mod_cast hpos
    calc (2 : ℚ) ^ (-40 : Int) ≤ 1 * 10 ^ (-12 : Int) := by norm_num
      _ ≤ m * 10 ^ e := by gcongr; norm_num
  · apply Int.le_of_lt_add_one
    apply floorLog2_lt hnum hden
    rw [decimal_eq_fraction]
    exact (decimal_le hm he').trans_lt (by norm_num)

theorem normalFraction_decimal : NormalFraction (m * 10 ^ e.toNat) (10 ^ (-e).toNat) := by
  obtain ⟨hlow, hhigh⟩ := floorLog2_decimal_bounds hpos hm he he'
  exact ⟨by positivity, by positivity, by omega, by omega⟩

theorem signBit_primary64 : (primary64 m e false).getLsbD 63 = false := by
  rw [primary64_false, (normalFraction_decimal hpos hm he he').signBit_rnd64]

theorem expField_primary64_bounds :
    983 ≤ expField (primary64 m e false) ∧ expField (primary64 m e false) ≤ 1057 := by
  obtain ⟨hlow, hhigh⟩ := floorLog2_decimal_bounds hpos hm he he'
  have hexp := (normalFraction_decimal hpos hm he he').expField_rnd64_bounds
  rw [← primary64_false] at hexp
  omega

theorem le_value64_primary64 : (2 : ℚ) ^ (-40 : Int) ≤ value64 (primary64 m e false) := by
  obtain ⟨hlow, _⟩ := floorLog2_decimal_bounds hpos hm he he'
  have hvalue := (normalFraction_decimal hpos hm he he').two_zpow_floorLog2_le_value64_rnd64
  rw [← primary64_false] at hvalue
  exact (zpow_le_zpow_right₀ one_le_two hlow).trans hvalue

end

section
variable {m : Nat} {e : Int} (hm : m ≤ 9999) (he : -12 ≤ e) (he' : e ≤ 6)
include hm he he'

theorem primary64_nearest (y : F64) :
    |value64 (primary64 m e false) - m * 10 ^ e| ≤ |value64 y - m * 10 ^ e| ∧
      (|value64 (primary64 m e false) - m * 10 ^ e| = |value64 y - m * 10 ^ e| →
        value64 y ≠ value64 (primary64 m e false) → (primary64 m e false).getLsbD 0 = false) := by
  rcases m.eq_zero_or_pos with rfl | hpos
  · rw [primary64_zero, value64_zero]
    exact ⟨by simp, fun _ _ => rfl⟩
  · have hnear := (normalFraction_decimal hpos hm he he').rnd64_nearest y
    rwa [decimal_eq_fraction, ← primary64_false] at hnear

theorem primary64_finite_nonneg :
    isFinite64 (primary64 m e false) = true ∧ (primary64 m e false).getLsbD 63 = false := by
  rcases m.eq_zero_or_pos with rfl | hpos
  · rw [primary64_zero]
    decide
  · obtain ⟨_, hexp⟩ := expField_primary64_bounds hpos hm he he'
    exact ⟨bne_iff_ne.mpr (by omega), signBit_primary64 hpos hm he he'⟩

/-- The sign is applied after rounding, and negation keeps distances. -/
theorem primary64_true_nearest (y : F64) :
    |value64 (primary64 m e true) + m * 10 ^ e| ≤ |value64 y + m * 10 ^ e| := by
  obtain ⟨hnear, _⟩ := primary64_nearest hm he he' (neg64 y)
  rw [value64_neg64, ← neg_add', abs_neg] at hnear
  rwa [primary64_true, value64_neg64, neg_add_eq_sub, abs_sub_comm]

/-- A bound that is itself a binary64 value also bounds what is rounded from below it. -/
theorem value64_primary64_le : value64 (primary64 m e false) ≤ 10 ^ 10 := by
  have hbound : value64 (rnd64 (10 ^ 10) 1) = 10 ^ 10 := mod_cast value64_rnd64_one (n := 10 ^ 10) (by norm_num)
  have hdec : (m : ℚ) * 10 ^ e ≤ 10 ^ 10 := (decimal_le hm he').trans (by norm_num)
  obtain ⟨hnear, _⟩ := primary64_nearest hm he he' (rnd64 (10 ^ 10) 1)
  rw [hbound, abs_of_nonneg (sub_nonneg.mpr hdec)] at hnear
  linarith [le_abs_self (value64 (primary64 m e false) - m * 10 ^ e)]

end

theorem value64_primary64_of_nonneg {m : Nat} {e : Int} (hm : m ≤ 9999) (hnonneg : 0 ≤ e) (he' : e ≤ 6) :
    value64 (primary64 m e false) = m * 10 ^ e := by
  have hpow : 10 ^ e.toNat ≤ 10 ^ 6 := Nat.pow_le_pow_right (by decide) (by omega)
  have hden : (-e).toNat = 0 := by omega
  have hsmall : m * 10 ^ e.toNat < 2 ^ 53 := (Nat.mul_le_mul hm hpow).trans_lt (by decide)
  rw [primary64_false, hden, pow_zero, value64_rnd64_one hsmall]
  push_cast
  rw [← zpow_natCast, Int.toNat_of_nonneg hnonneg]

/-- Settles O52: one rounding of the exact decimal, and the sign after it. -/
theorem conversionRoundsToNearestEven : Obligations.ConversionRoundsToNearestEven := by
  unfold Obligations.ConversionRoundsToNearestEven
  intro m e hm he he'
  obtain ⟨hfinite, hsign⟩ := primary64_finite_nonneg hm he he'
  refine ⟨⟨hfinite, hsign, fun y _ => ?_⟩, primary64_true m e, ?_⟩
  · obtain ⟨hnear, htie⟩ := primary64_nearest hm he he' y
    exact ⟨hnear, htie, primary64_true_nearest hm he he' y⟩
  · rintro rfl
    rw [primary64_true, primary64_zero]
    decide

/-- Settles O53: an integer is its own rounding, and the power of 2 below the decimal, between `2^-40` and `2^33`,
places the result in the normal range. -/
theorem conversionIsExactUpwardsAndNormal : Obligations.ConversionIsExactUpwardsAndNormal := by
  unfold Obligations.ConversionIsExactUpwardsAndNormal
  intro m e hm he he'
  refine ⟨fun hnonneg => value64_primary64_of_nonneg hm hnonneg he', ?_, fun hne => ?_⟩
  · rintro rfl
    exact primary64_zero e
  · have hpos := Nat.pos_of_ne_zero hne
    obtain ⟨hexp, hexp'⟩ := expField_primary64_bounds hpos hm he he'
    exact ⟨by omega, by omega, le_value64_primary64 hpos hm he he', value64_primary64_le hm he he'⟩

end Sys2Proof.Machine
end

section
/-! PROOFS. The exception statements (60_exceptions.md): no step stops (R220), a refused command has no effect (R221,
R222), the idle block (R230, R234), and simultaneous edges (R227). -/

namespace Sys2Proof.Machine

/-! ### Every step (R220, R230, R234) -/

/-- Settles O7: a step is idle or takes the first delivery, and whatever becomes of that, it is answered. -/
theorem everyStepAnswersOneCommand : Obligations.EveryStepAnswersOneCommand := by
  unfold Obligations.EveryStepAnswersOneCommand
  intro s
  obtain ⟨t, hstep⟩ := step_total s
  refine ⟨t, hstep, ?_⟩
  cases step_cases s t hstep with
  | idle hp ht => simp [ht, hp]
  | illegal d rest hp why hd ht => simp [ht, hp, answerIllegal]
  | command d rest hp i hd he =>
    obtain ⟨hbuild, hpending, _, status, data, hresponse⟩ := (exec_inv i _ t he).environment
    simp [hbuild, hpending, hresponse, hp]

/-- Settles O8: the idle step writes the two output ports and nothing else. -/
theorem idleBlockKeepsItsState : Obligations.IdleBlockKeepsItsState := by
  unfold Obligations.IdleBlockKeepsItsState
  intro s hp
  exact ⟨idle s, step_of_pending_nil s hp, ⟨rfl, rfl, rfl, rfl, rfl⟩, rfl, hp, rfl, rfl⟩

/-! ### Refused commands (R221, R222) -/

/-- A command not answered `OK` writes nothing but its response. -/
theorem Effect.eq_respond_of_refused {i : Instr} {s t : State} (h : Effect i s t) (r : Response)
    (hr : t.response = some r) (hno : r.status ≠ .ok) : t = respond r.status 0 s := by
  cases h with
  | nocfg _ _ _ h | second _ _ _ h | badLength _ _ _ _ h | badBit _ _ _ _ h | badByte _ _ _ _ h =>
    subst h
    rw [status_of_respond _ _ _ r hr]
  | nop _ h | size _ _ h | bit _ _ _ _ h | byte _ _ _ _ h | create _ _ _ _ h | append _ _ _ _ h
  | overflow _ _ _ h | reset _ _ h | enEdge _ _ h =>
    subst h
    exact absurd (status_of_respond _ _ _ r hr) hno

/-- A step not answered `OK` takes its delivery off the port and writes nothing but its response. -/
theorem step_eq_respond_of_refused (s t : State) (r : Response) (hstep : step s = .next t)
    (hr : t.response = some r) (hno : r.status ≠ .ok) : ∃ d rest, t = respond r.status 0 (deliver d rest s) := by
  cases step_cases s t hstep with
  | idle _ ht => simp [ht] at hr
  | illegal d rest _ _ _ ht =>
    subst ht
    exact ⟨d, rest, by rw [status_of_respond _ _ _ r hr, answerIllegal]⟩
  | command d rest _ i _ he => exact ⟨d, rest, (exec_inv i _ t he).eq_respond_of_refused r hr hno⟩

/-- Settles O11: taking the delivery off the port and responding write no field of `S`, and emit nothing. -/
theorem refusedCommandsHaveNoEffect : Obligations.RefusedCommandsHaveNoEffect := by
  unfold Obligations.RefusedCommandsHaveNoEffect
  intro s t r hstep hr hno
  obtain ⟨d, rest, ht⟩ := step_eq_respond_of_refused s t r hstep hr hno
  rw [ht] at hr ⊢
  refine ⟨(sameBlock_deliver d rest s).trans (sameBlock_respond _ _ _), rfl, ?_⟩
  exact (congrArg Response.data (Option.some.inj hr)).symm

/-- NOP and CONFIGURE do not ask for a configuration (60_exceptions.md R222). -/
theorem firstStatus_ne_nocfg (s : State) (i : Instr) (hcfg : s.cfg = false)
    (hi : i = .nop ∨ ∃ e, i = .configure e) : firstStatus s i ≠ .nocfg := by
  rcases hi with rfl | ⟨e, rfl⟩
  · simp [firstStatus]
  · cases hlegal : legalExp s.build e <;> simp [firstStatus, hcfg, hlegal]

/-- Settles O12: the prologue answers every command but NOP and CONFIGURE, and the status of those two is another. -/
theorem unconfiguredCommandsAnswerNocfg : Obligations.UnconfiguredCommandsAnswerNocfg := by
  unfold Obligations.UnconfiguredCommandsAnswerNocfg
  intro s i hcfg
  constructor
  · intro hnop hconfigure
    exact answers_of_exec_eq_respond (exec_of_unconfigured i s hcfg hnop hconfigure)
  · intro hi
    obtain ⟨t, ht, he⟩ := exec_effect i s
    obtain ⟨data, hr, _⟩ := he.response
    exact ⟨t, _, ht, hr, firstStatus_ne_nocfg s i hcfg hi⟩

/-! ### Simultaneous edges (R227) -/

theorem runReadings_two (s u t : State) (hu : step s = .next u) (ht : step u = .next t) :
    runReadings 2 s = some (u.dispatch ++ t.dispatch, t) := by
  rw [runReadings_succ 1 s u hu, runReadings_one u t ht, Option.map_some]

/-- A clock edge after a full frame spoils it. -/
theorem frameReading_push_of_full (v : Bool) (s : State) (hfull : s.cursor = s.exp) :
    frameReading (push v s) = none := by
  rw [push_of_at_capacity v s hfull]
  exact frameReading_of_malformed _ (.inl rfl)

/-- A frame more than one bit short is still short after a clock edge. -/
theorem frameReading_push_of_short (v : Bool) (s : State) (hshort : s.cursor.toNat + 1 < s.exp.toNat) :
    frameReading (push v s) = none := by
  have hcap : s.cursor ≠ s.exp := fun h => by rw [h] at hshort; omega
  rw [push_of_below_capacity v s hcap]
  refine frameReading_of_malformed _ (.inr fun h => ?_)
  have hnext : (s.cursor + 1).toNat = s.exp.toNat := congrArg BitVec.toNat h
  rw [toNat_cursor_add_one s (by omega) hcap] at hnext
  omega

/-- The bit at the cursor is 0 before a push, so after it that bit is the one pushed. -/
theorem append_bitRead_of_zeroPastCursor (v : Bool) (s : State) (hzero : ZeroPastCursor s)
    (hlt : s.cursor.toNat < s.exp.toNat) :
    (append v s).bitRead = fun p => if p = s.cursor.toNat then v else s.bitRead p := by
  have hwindow := exp_add_seven_le_storeBits s.exp
  funext p
  rw [append_bitRead]
  split
  · next hp => rw [hzero p (by omega) (by omega), Bool.false_or]
  · rfl

/-- A clock edge completes a frame one bit short, whose flag is clear by (I-c) of 10_state.md R28. -/
theorem frameReading_push_of_last (v : Bool) (s : State) (h : AccumulatorInvariants s)
    (hlast : s.cursor.toNat + 1 = s.exp.toNat) :
    frameReading (push v s) = decodeFrame s.build fun p => if p = s.cursor.toNat then v else s.bitRead p := by
  obtain ⟨_, _, hovf, hzero⟩ := h
  have hcap : s.cursor ≠ s.exp := fun h => by rw [h] at hlast; omega
  have hnext : s.cursor + 1 = s.exp :=
    BitVec.eq_of_toNat_eq ((toNat_cursor_add_one s (by omega) hcap).trans hlast)
  have hclear : s.ovf = false := Bool.eq_false_iff.mpr fun hset => hcap (hovf hset)
  rw [push_of_below_capacity v s hcap, ← append_bitRead_of_zeroPastCursor v s hzero (by omega)]
  exact frameReading_of_complete (respond .ok 0 (append v s)) hclear hnext

theorem accumulated_afterEnEdge (s : State) (hcfg : s.cfg = true) : Accumulated [] (afterEnEdge s) :=
  SameBlock.accumulated (s := accReset s) ⟨rfl, rfl, rfl, rfl, rfl⟩ (accumulated_accReset s hcfg)

/-- An accumulator of one bit: no legal length is less. -/
theorem Accumulated.of_singleton {v : Bool} {t : State} (h : Accumulated [v] t) (hpos : 1 ≤ t.exp.toNat) :
    t.cursor = 1 ∧ t.ovf = false ∧ t.bitRead 0 = v := by
  have hwindow := exp_add_seven_le_storeBits t.exp
  refine ⟨BitVec.eq_of_toNat_eq (h.cursor.trans (Nat.min_eq_left hpos)),
    h.ovf.trans (decide_eq_false (Nat.not_lt.mpr hpos)), ?_⟩
  rw [h.window 0 (by omega)]
  exact if_pos hpos

@[simp] theorem push_cfg (v : Bool) (s : State) : (push v s).cfg = s.cfg := by
  unfold push
  split <;> rfl

theorem pushes_clockDelivery (data : Bool) : (clockDelivery data).Pushes data := .inr ⟨decode_encode .clkEdge, rfl⟩

/-- The clock edge first: the enable edge ends the frame with the bit pushed. -/
theorem runReadings_clock_enable (s : State) (data : Bool) (hcfg : s.cfg = true)
    (hp : s.pending = [clockDelivery data, enableDelivery data]) :
    ∃ t, runReadings 2 s =
        some ((frameReading (push data (deliver (clockDelivery data) [enableDelivery data] s))).toList, t) ∧
      t.cursor = 0 ∧ t.ovf = false := by
  have hclock := step_of_pushes s _ _ data hcfg hp (pushes_clockDelivery data)
  have hdelivered : (deliver (clockDelivery data) [enableDelivery data] s).cfg = true := hcfg
  have henable := step_of_enEdge _ (enableDelivery data) [] ((push_cfg data _).trans hdelivered) (push_pending _ _)
    (decode_encode .enEdge)
  have hrun := runReadings_two s _ _ hclock henable
  rw [push_dispatch] at hrun
  exact ⟨_, hrun, rfl, rfl⟩

/-- The enable edge first: it ends the frame as it stands, and the clock edge pushes the first bit of the next one. -/
theorem runReadings_enable_clock (s : State) (data : Bool) (hcfg : s.cfg = true)
    (hp : s.pending = [enableDelivery data, clockDelivery data]) :
    ∃ t, runReadings 2 s = some ((frameReading s).toList, t) ∧ Accumulated [data] t ∧ t.exp = s.exp := by
  have henable := step_of_enEdge s _ _ hcfg hp (decode_encode .enEdge)
  have hempty := accumulated_afterEnEdge (deliver (enableDelivery data) [clockDelivery data] s) hcfg
  have hclock := step_of_pushes _ (clockDelivery data) [] data hempty.cfg rfl (pushes_clockDelivery data)
  have hrun := runReadings_two s _ _ henable hclock
  rw [push_dispatch, deliver_dispatch, List.append_nil] at hrun
  exact ⟨_, hrun, accumulated_push data [] _ ((sameBlock_deliver _ _ _).accumulated hempty), push_exp _ _⟩

/-- Settles O30: in the one order the frame that ends has the bit pushed, in the other the bit is the first of the
frame that begins. -/
theorem simultaneousEdgesInEitherOrder : Obligations.SimultaneousEdgesInEitherOrder := by
  unfold Obligations.SimultaneousEdgesInEitherOrder
  intro s data hsafe hcfg clock enable
  refine ⟨rfl, rfl, ?_, ?_⟩
  · obtain ⟨t, hrun, hcursor, hovf⟩ :=
      runReadings_clock_enable { s with pending := [clock, enable] } data hcfg rfl
    refine ⟨_, t, hrun, hcursor, hovf, fun hfull => ?_, fun hlast => ?_, fun hshort => ?_⟩
    · refine congrArg Option.toList (frameReading_push_of_full data _ ?_)
      exact hfull
    · exact congrArg Option.toList (frameReading_push_of_last data _ hsafe.accumulator hlast)
    · refine congrArg Option.toList (frameReading_push_of_short data _ ?_)
      exact hshort
  · obtain ⟨t, hrun, hacc, hexp⟩ := runReadings_enable_clock { s with pending := [enable, clock] } data hcfg rfl
    obtain ⟨hpos, _, _⟩ := hsafe.length hcfg
    obtain ⟨hcursor, hovf, hbit⟩ := hacc.of_singleton (hexp ▸ hpos)
    refine ⟨_, t, hrun, hcursor, hovf, hbit, fun hclear hfull => ?_, fun hbad => ?_⟩
    · exact congrArg Option.toList (frameReading_of_complete _ hclear hfull)
    · exact congrArg Option.toList (frameReading_of_malformed _ hbad)

end Sys2Proof.Machine
end

section
/-! PROOFS. The reset statements (70_reset_and_hazards.md): the state at power-on (R250), and RESET against a fresh
configuration (R251). -/

namespace Sys2Proof.Machine

/-! ### Power-on (R250) -/

/-- An unconfigured block has no length to speak of; the storage claims hold because no byte is listed (log entry 3). -/
theorem safe_powerOn (b : Build) : Safe (State.powerOn b) where
  accumulator := ⟨fun _ => ⟨powerOn_cursor b, powerOn_ovf b⟩, fun h => (nomatch h), fun h => (nomatch h),
    fun p _ _ => Memory.bit_nil p⟩
  length := fun h => (nomatch h)
  padding := fun h => (nomatch h)
  store := ⟨Memory.wf_nil, fun _ h => (nomatch h)⟩

/-- Settles O33: the machine after reset is the power-on state of one choice of parameters. -/
theorem powerOnIsSafe : Obligations.PowerOnIsSafe := by
  unfold Obligations.PowerOnIsSafe
  exact ⟨safe_powerOn Config.build, safe_powerOn⟩

/-- Settles O34, by the fields of the power-on state. -/
theorem powerOnState : Obligations.PowerOnState := by
  unfold Obligations.PowerOnState
  exact ⟨fun b => ⟨powerOn_cfg b, powerOn_exp b, powerOn_cursor b, powerOn_ovf b, powerOn_build b⟩,
    powerOn_cfg _, powerOn_exp _, powerOn_cursor _, powerOn_ovf _⟩

/-! ### RESET and a fresh configuration (R251) -/

/-- An accepted CONFIGURE leaves no byte of a well-formed storage listed. -/
theorem create_store_eq_nil (e : Half) (s : State) (h : StoreWellFormed s) : (create e s).store = [] :=
  congrArg State.store (create_withStore e s.store s h)

/-- RESET zeroes the window alone and CONFIGURE the whole storage, but past the window a good block has only zeros. -/
theorem accReset_eq_create (s : State) (h : Safe s) (hcfg : s.cfg = true) :
    accReset s = create s.exp { s with cfg := false } := by
  have hreset := accReset_store_eq_nil s h hcfg
  have hcreate := create_store_eq_nil s.exp { s with cfg := false } h.store
  simp only [accReset_store, create_store] at hreset hcreate
  simp only [accReset, create, hreset, hcreate, hcfg]

/-- Settles O37: a good block's length is legal, so the fresh CONFIGURE is accepted, and both commands answer `OK` from
one state. -/
theorem resetIsAsFreshlyConfigured : Obligations.ResetIsAsFreshlyConfigured := by
  unfold Obligations.ResetIsAsFreshlyConfigured
  intro s h hcfg
  have hlegal : legalExp s.build s.exp = true := (legalExp_iff s.build s.exp).mpr (h.length hcfg)
  refine ⟨_, _, exec_reset s hcfg, exec_configure_of_legalExp s.exp { s with cfg := false } rfl hlegal, ?_,
    accReset_store_eq_nil s h hcfg⟩
  rw [accReset_eq_create s h hcfg]

end Sys2Proof.Machine
end
